-- ==== Sys2Proof/Word.lean ====
section
/-! DEFINITION. The widths of the LS-8 interpreter core (00_scope.md R8, R9). -/

namespace Sys2Proof

/-- A register, a memory cell, an operand byte: 8 bits, always read as the unsigned integer 0..255
(00_scope.md R8 `XLEN`, R9). -/
abbrev Byte := BitVec 8

/-- The 9-bit words: the program counter (10_state.md R24), FAULT_PC and FAULT_VALUE (R35). -/
abbrev Word9 := BitVec 9

/-- The index of one of the `NREG` = 8 general registers (00_scope.md R8, 10_state.md R20). -/
abbrev RegIdx := Fin 8

/-- `trunc8(v)` = v mod 256 of 00_scope.md R9: where a rule brings an unbounded result to 8 bits. -/
abbrev trunc8 (v : Nat) : Byte := BitVec.ofNat 8 v

end Sys2Proof
end

