-- ==== Sys2Proof/Config.lean ====
section
/-! DEFINITION. What is fixed for one instance of the core: the parameters of 00_scope.md R8, and the
one free value of the spec (41_alu.md R115). -/

namespace Sys2Proof

/-- `CMP_MODE` (00_scope.md R8): which of the two compares of 41_alu.md R115 the core has. -/
inductive CmpMode where
  | corrected
  | legacy
  deriving DecidableEq, Repr

/-- The 19 mnemonics of 30_encoding.md R76, in its order. -/
inductive Mnemonic where
  | hlt | ldi | prn
  | add | mul | cmp | and | or | xor | not | shl | shr
  | push | pop | call | ret | jmp | jeq | jne
  deriving DecidableEq, Repr

/-- `OPCODE_MAP` (30_encoding.md R78, R79): the opcode byte of each mnemonic. That each mnemonic has
exactly one byte is the shape of this type; that no byte serves two is `OpcodeMap.wf`. -/
structure OpcodeMap where
  hlt : Byte
  ldi : Byte
  prn : Byte
  add : Byte
  mul : Byte
  cmp : Byte
  and : Byte
  or : Byte
  xor : Byte
  not : Byte
  shl : Byte
  shr : Byte
  push : Byte
  pop : Byte
  call : Byte
  ret : Byte
  jmp : Byte
  jeq : Byte
  jne : Byte
  deriving DecidableEq, Repr

/-- The parameters of 00_scope.md R8. The values it marks "fixed" are the widths of `Word.lean`. -/
structure Config where
  /-- `MEM_SIZE`, the number of memory cells; allowed 1..256. -/
  memSize : Nat
  /-- `CMP_MODE`. -/
  cmpMode : CmpMode
  /-- `OPCODE_MAP`. -/
  opcodeMap : OpcodeMap
  deriving DecidableEq, Repr

/-- The draw of 41_alu.md R115: in LEGACY mode a CMP with va > vb leaves FL as it was (true) or clears
it (false), and the spec does not say which. A free value, one per draw; it has no body, so nothing can
be proved of its values. DESIGN CHOICE (log 5), safe: every statement holds for every outcome. -/
opaque Config.legacyDraw : Nat → Bool

end Sys2Proof
end

