-- ==== Sys2Proof/Syntax.lean ====
section
/-! DEFINITION. The instructions: one constructor per row of spec/opcode_table.json. -/

namespace Sys2Proof

/-- An instruction with its operand bytes as they stand in memory (30_encoding.md R71). `a` and `b` are
register operand BYTES 0..255, not indexes: a byte of 8 or more makes no instruction illegal (R81), it
makes the instruction raise REG_RANGE (R83). DEDUCED (log 8), safe. `imm` is LDI's immediate (R73). -/
inductive Instr where
  | hlt
  | ldi (a imm : Byte)
  | prn (a : Byte)
  | add (a b : Byte)
  | mul (a b : Byte)
  | cmp (a b : Byte)
  | and (a b : Byte)
  | or (a b : Byte)
  | xor (a b : Byte)
  | not (a : Byte)
  | shl (a b : Byte)
  | shr (a b : Byte)
  | push (a : Byte)
  | pop (a : Byte)
  | call (a : Byte)
  | ret
  | jmp (a : Byte)
  | jeq (a : Byte)
  | jne (a : Byte)
  deriving DecidableEq, Repr

end Sys2Proof
end

