-- ==== Sys2Proof/WellFormed.lean ====
section
/-! DEFINITION. Which instructions name registers that exist (10_state.md R22). -/

namespace Sys2Proof

/-- The operand bytes the format marks as register indexes, A before B (30_encoding.md R83). The
immediate of LDI is not among them. -/
def Instr.regBytes : Instr → List Byte
  | .hlt => []
  | .ldi a _ => [a]
  | .prn a => [a]
  | .add a b => [a, b]
  | .mul a b => [a, b]
  | .cmp a b => [a, b]
  | .and a b => [a, b]
  | .or a b => [a, b]
  | .xor a b => [a, b]
  | .not a => [a]
  | .shl a b => [a, b]
  | .shr a b => [a, b]
  | .push a => [a]
  | .pop a => [a]
  | .call a => [a]
  | .ret => []
  | .jmp a => [a]
  | .jeq a => [a]
  | .jne a => [a]

/-- Every register operand byte names a register: it lies in [0, 8) (10_state.md R22). An instruction
that fails this check still decodes, encodes and runs: its effect is to raise REG_RANGE. -/
def Instr.wellFormed (i : Instr) : Bool :=
  i.regBytes.all fun r => r.toNat < 8

end Sys2Proof
end

