-- ==== Sys2Proof/Decode.lean ====
section
/-! DEFINITION. Formats, the opcode map, the decoder and the encoder (30_encoding.md). -/

namespace Sys2Proof

/-- The four operand shapes of 30_encoding.md R71. -/
inductive Format where
  | N
  | R
  | RR
  | RI
  deriving DecidableEq, Repr

/-- The number of operand bytes of a format (30_encoding.md R71). -/
def Format.operandCount : Format → Nat
  | .N => 0
  | .R => 1
  | .RR => 2
  | .RI => 2

/-- All 19 mnemonics, in the order of 30_encoding.md R76. -/
def Mnemonic.all : List Mnemonic :=
  [.hlt, .ldi, .prn, .add, .mul, .cmp, .and, .or, .xor, .not, .shl, .shr,
   .push, .pop, .call, .ret, .jmp, .jeq, .jne]

/-- The format column of 30_encoding.md R78. -/
def Mnemonic.format : Mnemonic → Format
  | .hlt => .N
  | .ldi => .RI
  | .prn => .R
  | .add => .RR
  | .mul => .RR
  | .cmp => .RR
  | .and => .RR
  | .or => .RR
  | .xor => .RR
  | .not => .R
  | .shl => .RR
  | .shr => .RR
  | .push => .R
  | .pop => .R
  | .call => .R
  | .ret => .N
  | .jmp => .R
  | .jeq => .R
  | .jne => .R

/-- The width of an instruction: 1 + its number of operand bytes (30_encoding.md R70). -/
def Mnemonic.width (k : Mnemonic) : Nat := 1 + k.format.operandCount

/-- The byte a map gives a mnemonic. -/
def OpcodeMap.byteOf (m : OpcodeMap) : Mnemonic → Byte
  | .hlt => m.hlt
  | .ldi => m.ldi
  | .prn => m.prn
  | .add => m.add
  | .mul => m.mul
  | .cmp => m.cmp
  | .and => m.and
  | .or => m.or
  | .xor => m.xor
  | .not => m.not
  | .shl => m.shl
  | .shr => m.shr
  | .push => m.push
  | .pop => m.pop
  | .call => m.call
  | .ret => m.ret
  | .jmp => m.jmp
  | .jeq => m.jeq
  | .jne => m.jne

/-- No byte maps to two mnemonics (30_encoding.md R79). -/
abbrev OpcodeMap.wf (m : OpcodeMap) : Prop := (Mnemonic.all.map m.byteOf).Nodup

/-- The full-byte lookup of 30_encoding.md R80: the mnemonic of an opcode byte, if it has one. -/
def OpcodeMap.lookup (m : OpcodeMap) (op : Byte) : Option Mnemonic :=
  Mnemonic.all.find? fun k => m.byteOf k == op

/-- The default `OPCODE_MAP`, the table of 30_encoding.md R78. UNVERIFIED (log 2), unsafe: the spec
supplies these bytes from the LS-8 convention, not from its source (93_implementation_defined.md G1). -/
def OpcodeMap.default : OpcodeMap where
  hlt := 0b00000001
  ldi := 0b10000010
  prn := 0b01000111
  add := 0b10100000
  mul := 0b10100010
  cmp := 0b10100111
  and := 0b10101000
  or := 0b10101010
  xor := 0b10101011
  not := 0b01101001
  shl := 0b10101100
  shr := 0b10101101
  push := 0b01000101
  pop := 0b01000110
  call := 0b01010000
  ret := 0b00010001
  jmp := 0b01010100
  jeq := 0b01010101
  jne := 0b01010110

/-- The allowed range of the parameters: 1 ≤ MEM_SIZE ≤ 256 (00_scope.md R8) and a map that keeps the
properties of 30_encoding.md R79. -/
abbrev Config.wf (c : Config) : Prop := 1 ≤ c.memSize ∧ c.memSize ≤ 256 ∧ c.opcodeMap.wf

/-- The defaults of 00_scope.md R8. -/
def Config.default : Config where
  memSize := 256
  cmpMode := .corrected
  opcodeMap := OpcodeMap.default

/-- The instruction of a mnemonic with operand bytes `a` (at p+1) and `b` (at p+2); a byte its format
does not have is not looked at (30_encoding.md R71). -/
def Mnemonic.build (k : Mnemonic) (a b : Byte) : Instr :=
  match k with
  | .hlt => .hlt
  | .ldi => .ldi a b
  | .prn => .prn a
  | .add => .add a b
  | .mul => .mul a b
  | .cmp => .cmp a b
  | .and => .and a b
  | .or => .or a b
  | .xor => .xor a b
  | .not => .not a
  | .shl => .shl a b
  | .shr => .shr a b
  | .push => .push a
  | .pop => .pop a
  | .call => .call a
  | .ret => .ret
  | .jmp => .jmp a
  | .jeq => .jeq a
  | .jne => .jne a

/-- Why bytes are no instruction. -/
inductive DecodeReject where
  /-- There is no opcode byte. -/
  | noBytes
  /-- The opcode byte is not in the map (30_encoding.md R80). -/
  | unknownOpcode (op : Byte)
  /-- The bytes end before operand byte number `missing` (1 or 2) of a known opcode. -/
  | operandMissing (k : Mnemonic) (missing : Nat)
  deriving DecidableEq, Repr

/-- The decoder: the first instruction of a list of bytes and the bytes after it. The opcode byte alone
gives the length (30_encoding.md R70, R81), and it is looked up before any operand byte (R82). -/
def decode (m : OpcodeMap) : List Byte → Except DecodeReject (Instr × List Byte)
  | [] => .error .noBytes
  | op :: rest =>
    match m.lookup op with
    | none => .error (.unknownOpcode op)
    | some k =>
      match k.format.operandCount, rest with
      | 0, rest => .ok (k.build 0 0, rest)
      | 1, a :: rest => .ok (k.build a 0, rest)
      | _, a :: b :: rest => .ok (k.build a b, rest)
      | _, [_] => .error (.operandMissing k 2)
      | _, [] => .error (.operandMissing k 1)

/-- The mnemonic of an instruction. -/
def Instr.mnemonic : Instr → Mnemonic
  | .hlt => .hlt
  | .ldi _ _ => .ldi
  | .prn _ => .prn
  | .add _ _ => .add
  | .mul _ _ => .mul
  | .cmp _ _ => .cmp
  | .and _ _ => .and
  | .or _ _ => .or
  | .xor _ _ => .xor
  | .not _ => .not
  | .shl _ _ => .shl
  | .shr _ _ => .shr
  | .push _ => .push
  | .pop _ => .pop
  | .call _ => .call
  | .ret => .ret
  | .jmp _ => .jmp
  | .jeq _ => .jeq
  | .jne _ => .jne

/-- The operand bytes of an instruction, in increasing addresses (20_memory.md R51). -/
def Instr.operandBytes : Instr → List Byte
  | .hlt => []
  | .ldi a imm => [a, imm]
  | .prn a => [a]
  | .add a b => [a, b]
  | .mul a b => [a, b]
  | .cmp a b => [a, b]
  | .and a b => [a, b]
  | .or a b => [a, b]
  | .xor a b => [a, b]
  | .not a => [a]
  | .shl a b => [a, b]
  | .shr a b => [a, b]
  | .push a => [a]
  | .pop a => [a]
  | .call a => [a]
  | .ret => []
  | .jmp a => [a]
  | .jeq a => [a]
  | .jne a => [a]

/-- The width of an instruction in bytes (30_encoding.md R78). -/
def Instr.width (i : Instr) : Nat := i.mnemonic.width

/-- The encoder: the opcode byte, then the operand bytes (30_encoding.md R70, R71). -/
def encode (m : OpcodeMap) (i : Instr) : List Byte :=
  m.byteOf i.mnemonic :: i.operandBytes

/-- The three bytes of a number whose bit 0 is the least significant bit of the first byte, with every
bit at or above `nbits` zero: the longest instruction has three bytes (30_encoding.md R70). -/
def tableBytes (nbits w : Nat) : List Byte :=
  let v := w % 2 ^ nbits
  [trunc8 v, trunc8 (v / 256), trunc8 (v / 65536)]

/-- What the decoder reads, under the default map, from an instruction whose bits are `w` as
spec/opcode_table.json numbers them. -/
def decodeTableWord (nbits w : Nat) : Option Instr :=
  match decode OpcodeMap.default (tableBytes nbits w) with
  | .ok (i, _) => some i
  | .error _ => none

end Sys2Proof
end

