-- ==== Sys2Proof/Machine/Memory.lean ====
section
/-! DEFINITION. The byte memory as a canonical list of cells (10_state.md R32). -/

namespace Sys2Proof.Machine

/-- Memory content: the cells that differ from the reset content, as (address, byte) pairs. -/
abbrev Memory := List Host.Cell

/-- What a cell that is not listed holds: the zero-initialized value of 10_state.md R41 and
70_reset_and_hazards.md R205. -/
def Memory.unlisted : Byte := 0

/-- The canonical form from address `lo` up: addresses strictly rise, and no entry holds what an
unlisted cell holds. -/
def Memory.wfFrom : Nat → Memory → Bool
  | _, [] => true
  | lo, (k, v) :: m => decide (lo ≤ k) && decide (v ≠ Memory.unlisted) && Memory.wfFrom (k + 1) m

/-- The canonical form: equal memories are equal lists. -/
def Memory.wf (m : Memory) : Bool := Memory.wfFrom 0 m

/-- Every listed cell has an address below `n`. -/
def Memory.below (n : Nat) (m : Memory) : Bool := m.all fun c => decide (c.1 < n)

/-- The byte in a cell (20_memory.md R53). -/
def Memory.read : Memory → Nat → Byte
  | [], _ => Memory.unlisted
  | (k, v) :: m, a => if a = k then v else Memory.read m a

/-- Replace one whole cell (20_memory.md R53), keeping the canonical form. -/
def Memory.write : Memory → Nat → Byte → Memory
  | [], a, v => if v = Memory.unlisted then [] else [(a, v)]
  | (k, w) :: m, a, v =>
    if a < k then (if v = Memory.unlisted then (k, w) :: m else (a, v) :: (k, w) :: m)
    else if a = k then (if v = Memory.unlisted then m else (a, v) :: m)
    else (k, w) :: Memory.write m a v

/-- The cells of a program image placed from address `base` up (10_state.md R41: image[i] in cell i). -/
def Memory.ofImage : Nat → List Byte → Memory
  | _, [] => []
  | base, b :: bs =>
    if b = Memory.unlisted then Memory.ofImage (base + 1) bs
    else (base, b) :: Memory.ofImage (base + 1) bs

end Sys2Proof.Machine
end

