-- ==== Sys2Proof/Machine/State.lean ====
section
/-! DEFINITION. The state of one core (10_state.md), the reasons a step could stop, and reset. -/

namespace Sys2Proof.Machine

/-- `RUN_STATE` (10_state.md R34). -/
inductive RunState where
  | running
  | halted
  | faulted
  deriving DecidableEq, Repr

/-- The fault causes of 60_exceptions.md R170; their code numbers are `FaultCause.code` in Ops.lean. -/
inductive FaultCause where
  /-- Code 0: no fault; the reset value of FAULT_CAUSE. -/
  | none
  /-- Code 1: the opcode byte is not in OPCODE_MAP (R171). -/
  | unknownOpcode
  /-- Code 2: unreachable; no step raises it (R172). -/
  | unsupportedAluOp
  /-- Code 3: a register operand byte of 8 or more (R173). -/
  | regRange
  /-- Code 4: a memory access at MEM_SIZE or above (R174). -/
  | addrRange
  /-- Code 5: CALL's return address does not fit a byte (R176). -/
  | retAddrRange
  deriving DecidableEq, Repr

/-- The state of one core instance (10_state.md R20 to R40): plain data. -/
structure State where
  /-- The parameters of the instance (R39): no step changes them (log 1). -/
  cfg : Config
  /-- `x[0]` to `x[7]` (R20); `x[7]` is SP (R21). -/
  regs : Vector Byte 8
  /-- The program counter (R24). -/
  pc : Word9
  /-- The flags register FL (R27). -/
  fl : Byte
  /-- The memory cells (R32). -/
  mem : Memory
  /-- RUN_STATE (R34). -/
  runState : RunState
  /-- FAULT_CAUSE (R35). -/
  faultCause : FaultCause
  /-- FAULT_PC (R35). -/
  faultPc : Word9
  /-- FAULT_VALUE (R35). -/
  faultValue : Word9
  /-- STEPS (R36). -/
  steps : BitVec 64
  /-- OUT, oldest event first (R38). -/
  out : List Byte
  /-- The model's own field: how many draws LEGACY CMP has taken (41_alu.md R115). DESIGN CHOICE
  (log 5), safe. -/
  draws : Nat
  deriving DecidableEq, Repr

/-- The Host faults of a step. The core's own faults are NOT here: 60_exceptions.md R178 describes what
they do to the state, so a step that raises one answers a next state with RUN_STATE = FAULTED (log 6). -/
inductive Fault where
  /-- UNSUPPORTED_ALU_OP (41_alu.md R114: "A model keeps it only as a constructor no step produces").
  Nobody raises it, so it is safe. -/
  | unsupportedAluOp
  deriving DecidableEq, Repr

/-- The refusals of the model. -/
inductive Refusal where
  /-- An instruction that has no meaning yet, rejected by name. Safe. No arm of `exec` answers it. -/
  | notModelled (mnemonic : String)
  /-- Raised by the Reset transaction: the image is longer than MEM_SIZE or holds an element outside
  0..255 (10_state.md R45). Safe: the spec says this Reset is refused. -/
  | imageRefused
  /-- Raised by the Reset transaction: the parameters are outside the range 00_scope.md R8 and
  30_encoding.md R79 allow. DESIGN CHOICE (log 11), safe: there is no such core. -/
  | configRefused
  deriving DecidableEq, Repr

/-- The reset values of 10_state.md R41 for a core with parameters `cfg` and the image whose cells are
`image`. -/
def State.initial (cfg : Config) (image : Memory) : State where
  cfg := cfg
  regs := #v[0, 0, 0, 0, 0, 0, 0, trunc8 (cfg.memSize - 1)]
  pc := 0
  fl := 0
  mem := image
  runState := .running
  faultCause := .none
  faultPc := 0
  faultValue := 0
  steps := 0
  out := []
  draws := 0

/-- The machine right after Reset with the default parameters and the empty image (10_state.md R41,
R44: a length of 0 is allowed). How a program comes to run from here is log 10. -/
def State.reset : State := State.initial Config.default []

end Sys2Proof.Machine
end

