-- ==== Sys2Proof/Machine/Flags.lean ====
section
/-! DEFINITION. The flags register FL (10_state.md R27) and the one computation that writes it
(41_alu.md R115). -/

namespace Sys2Proof.Machine

/-- FL with only E (Equal, bit 0) set. The bit places of FL are UNVERIFIED (log 3), unsafe: 10_state.md R27
takes them from the LS-8 convention. -/
def flagE : Byte := 0b00000001

/-- FL with only G (Greater, bit 1) set. -/
def flagG : Byte := 0b00000010

/-- FL with only L (Less, bit 2) set. -/
def flagL : Byte := 0b00000100

/-- `FL.E`, bit 0 of FL. -/
def State.flE (s : State) : Bool := s.fl.getLsbD 0

/-- `FL.G`, bit 1 of FL. -/
def State.flG (s : State) : Bool := s.fl.getLsbD 1

/-- `FL.L`, bit 2 of FL. -/
def State.flL (s : State) : Bool := s.fl.getLsbD 2

/-- Does this compare take a draw? Only in LEGACY mode with va > vb (41_alu.md R115). -/
def cmpDraws (mode : CmpMode) (va vb : Byte) : Bool :=
  match mode with
  | .corrected => false
  | .legacy => decide (vb.toNat < va.toNat)

/-- `cmp_flags(va, vb, FL_old)` of 41_alu.md R115. `keep` is the outcome of the draw from
{FL_old, 0}, and is looked at only where the rule draws. -/
def cmpFlags (mode : CmpMode) (va vb old : Byte) (keep : Bool) : Byte :=
  match mode with
  | .corrected =>
    if va.toNat = vb.toNat then flagE
    else if vb.toNat < va.toNat then flagG
    else flagL
  | .legacy =>
    if va.toNat = vb.toNat then flagE
    else if va.toNat < vb.toNat then flagL
    else if keep then old
    else 0

end Sys2Proof.Machine
end

