-- ==== Sys2Proof/Machine/Ops.lean ====
section
/-! DEFINITION. The named operations over the state: registers, memory, pc, output, and taking a fault. -/

namespace Sys2Proof.Machine

/-! ## Registers (10_state.md R20, R21) -/

/-- The index of the stack pointer, `SP_INDEX` (00_scope.md R8). -/
def spIdx : RegIdx := 7

/-- `x[r]` (00_scope.md R10). -/
def State.readReg (s : State) (r : RegIdx) : Byte := s.regs[r]

/-- `x[r] <- v` (00_scope.md R10). Every register is plain: none is hard-wired (10_state.md R20). -/
def State.writeReg (s : State) (r : RegIdx) (v : Byte) : State := { s with regs := s.regs.set r v }

/-- `SP`, another name for `x[7]` (10_state.md R21). -/
def State.sp (s : State) : Byte := s.readReg spIdx

/-- `SP <- v`. -/
def State.writeSp (s : State) (v : Byte) : State := s.writeReg spIdx v

/-- `dec_sp()` = (x[7] − 1) mod MEM_SIZE (42_stack.md R140). With MEM_SIZE ≥ 1, adding MEM_SIZE first
gives the same residue and stays in the natural numbers. -/
def State.decSp (s : State) : Byte := trunc8 ((s.sp.toNat + s.cfg.memSize - 1) % s.cfg.memSize)

/-- `inc_sp()` = (x[7] + 1) mod MEM_SIZE (42_stack.md R140). -/
def State.incSp (s : State) : Byte := trunc8 ((s.sp.toNat + 1) % s.cfg.memSize)

/-! ## The program counter (10_state.md R24, R25; 30_encoding.md R87) -/

/-- `zext_9(v)` (43_control.md): an 8-bit value as a pc. -/
def zext9 (v : Byte) : Word9 := BitVec.ofNat 9 v.toNat

/-- An explicit set, `pc <- target`. -/
def State.jumpTo (s : State) (target : Byte) : State := { s with pc := zext9 target }

/-- Sequential advance, `pc <- p + w`. -/
def State.advance (s : State) (w : Nat) : State := { s with pc := s.pc + BitVec.ofNat 9 w }

/-! ## Flags, output, end of the run, step counter -/

/-- `FL <- cmp_flags(va, vb, FL)` (41_alu.md R110, R115); a draw, if one is taken, is the next one. -/
def State.compare (s : State) (va vb : Byte) : State :=
  { s with
    fl := cmpFlags s.cfg.cmpMode va vb s.fl (Config.legacyDraw s.draws)
    draws := if cmpDraws s.cfg.cmpMode va vb then s.draws + 1 else s.draws }

/-- `Output(v)`: append v to OUT (10_state.md R38). -/
def State.emit (s : State) (v : Byte) : State := { s with out := s.out ++ [v] }

/-- `RUN_STATE <- HALTED` (40_basic.md R100). -/
def State.halt (s : State) : State := { s with runState := .halted }

/-- `STEPS <- (STEPS + 1) mod 2^64` (10_state.md R36). -/
def State.countStep (s : State) : State := { s with steps := s.steps + 1 }

/-! ## Faults (60_exceptions.md) -/

/-- The code numbers of 60_exceptions.md R170. -/
def FaultCause.code : FaultCause → Nat
  | .none => 0
  | .unknownOpcode => 1
  | .unsupportedAluOp => 2
  | .regRange => 3
  | .addrRange => 4
  | .retAddrRange => 5

/-- What `raise F(value)` carries (00_scope.md R10, 60_exceptions.md R170). -/
structure Raised where
  cause : FaultCause
  value : Word9
  deriving DecidableEq, Repr

/-- `raise F(value)`: end the instruction at once. -/
def raise {α : Type} (cause : FaultCause) (value : Nat) : Except Raised α :=
  .error { cause := cause, value := BitVec.ofNat 9 value }

/-- TAKING A FAULT (60_exceptions.md R178), from the state before the step: RUN_STATE and the fault
record are written, FAULT_PC with p = pc, and nothing else changes. There is no return from a fault
(R179). -/
def State.enterFault (s : State) (f : Raised) : State :=
  { s with runState := .faulted, faultCause := f.cause, faultPc := s.pc, faultValue := f.value }

/-- How `Execute` ends for an instruction started in state `s`: with its own state, or, where it raised
a fault, with that fault taken FROM `s`. Whatever the instruction had written is thus dropped, as R178
says; the rules raise before their first write anyway. DEDUCED (log 6), safe. -/
def conclude (s : State) : Except Raised State → Host.Outcome State Fault Refusal
  | .ok t => .next t
  | .error f => .next (s.enterFault f)

/-- The last line of `Step()` (30_encoding.md R84): a step that raised no fault counts. -/
def counted : Host.Outcome State Fault Refusal → Host.Outcome State Fault Refusal
  | .next t => .next (if t.runState = .faulted then t else t.countStep)
  | .fault f => .fault f
  | .refused r => .refused r

/-! ## Memory (20_memory.md R54) -/

/-- `MemRead(addr, 1)` (00_scope.md R10): ADDR_RANGE(addr) at MEM_SIZE or above. -/
def State.memRead (s : State) (addr : Nat) : Except Raised Byte :=
  if addr < s.cfg.memSize then .ok (s.mem.read addr) else raise .addrRange addr

/-- Cell `addr` replaced by `v`, with no range check. -/
def State.setCell (s : State) (addr : Nat) (v : Byte) : State := { s with mem := s.mem.write addr v }

/-- `MemWrite(addr, 1, v)` (00_scope.md R10): ADDR_RANGE(addr) at MEM_SIZE or above. -/
def State.memWrite (s : State) (addr : Nat) (v : Byte) : Except Raised State :=
  if addr < s.cfg.memSize then .ok (s.setCell addr v) else raise .addrRange addr

end Sys2Proof.Machine
end

