-- ==== Sys2Proof/Machine/Operands.lean ====
section
/-! DEFINITION. The operand forms: a register operand byte (30_encoding.md R72, R83). The only other form,
LDI's immediate, is the byte as it is (R73). -/

namespace Sys2Proof.Machine

/-- The register a register operand byte names. The whole byte is the index, not masked (R72); a byte of
8 or more raises REG_RANGE(byte) (R83). -/
def regOperand (a : Byte) : Except Raised RegIdx :=
  if h : a.toNat < 8 then .ok ⟨a.toNat, h⟩ else raise .regRange a.toNat

end Sys2Proof.Machine
end

