-- ==== Sys2Proof/Machine/Alu.lean ====
section
/-! DEFINITION. The ALU and its nine instructions (41_alu.md). -/

namespace Sys2Proof.Machine

/-- The closed set of ALU operations (30_encoding.md R85, 41_alu.md R114). -/
inductive AluOp where
  | add | mul | cmp | and | or | xor | not | shl | shr
  deriving DecidableEq, Repr

/-- `(va + vb) mod 256` (41_alu.md R120). -/
def aluAdd (va vb : Byte) : Byte := trunc8 (va.toNat + vb.toNat)

/-- `(va * vb) mod 256` (41_alu.md R121). -/
def aluMul (va vb : Byte) : Byte := trunc8 (va.toNat * vb.toNat)

/-- `va AND vb`, bit by bit (41_alu.md R123). -/
def aluAnd (va vb : Byte) : Byte := va &&& vb

/-- `va OR vb`, bit by bit (41_alu.md R124). -/
def aluOr (va vb : Byte) : Byte := va ||| vb

/-- `va XOR vb`, bit by bit (41_alu.md R125). -/
def aluXor (va vb : Byte) : Byte := va ^^^ vb

/-- `(NOT va) mod 256` (41_alu.md R126). -/
def aluNot (va : Byte) : Byte := ~~~va

/-- `(va << vb) mod 256`; the amount is the whole byte (41_alu.md R116, R127). -/
def aluShl (va vb : Byte) : Byte := trunc8 (va.toNat <<< vb.toNat)

/-- `va >> vb`, zeros shifted in; the amount is the whole byte (41_alu.md R116, R128). -/
def aluShr (va vb : Byte) : Byte := trunc8 (va.toNat >>> vb.toNat)

/-- `ALU(op, A, B)` (41_alu.md R110): both operands are read before anything is written; CMP writes FL,
every other operation writes x[A] alone (R113). NOT does not look at its B (R126). -/
def alu (op : AluOp) (ra rb : RegIdx) (s : State) : State :=
  let va := s.readReg ra
  let vb := s.readReg rb
  match op with
  | .add => s.writeReg ra (aluAdd va vb)
  | .mul => s.writeReg ra (aluMul va vb)
  | .cmp => s.compare va vb
  | .and => s.writeReg ra (aluAnd va vb)
  | .or => s.writeReg ra (aluOr va vb)
  | .xor => s.writeReg ra (aluXor va vb)
  | .not => s.writeReg ra (aluNot va)
  | .shl => s.writeReg ra (aluShl va vb)
  | .shr => s.writeReg ra (aluShr va vb)

/-- The handler of the two-register ALU instructions (30_encoding.md R83, R85): check A, then B, call the
ALU, advance by 3. -/
def aluRR (op : AluOp) (a b : Byte) (s : State) : Host.Outcome State Fault Refusal :=
  conclude s do
    let ra ← regOperand a
    let rb ← regOperand b
    return (alu op ra rb s).advance 3

/-- ADD A, B (41_alu.md R120). -/
def execAdd (a b : Byte) (s : State) : Host.Outcome State Fault Refusal := aluRR .add a b s

/-- MUL A, B (41_alu.md R121). -/
def execMul (a b : Byte) (s : State) : Host.Outcome State Fault Refusal := aluRR .mul a b s

/-- CMP A, B (41_alu.md R122). -/
def execCmp (a b : Byte) (s : State) : Host.Outcome State Fault Refusal := aluRR .cmp a b s

/-- AND A, B (41_alu.md R123). -/
def execAnd (a b : Byte) (s : State) : Host.Outcome State Fault Refusal := aluRR .and a b s

/-- OR A, B (41_alu.md R124). -/
def execOr (a b : Byte) (s : State) : Host.Outcome State Fault Refusal := aluRR .or a b s

/-- XOR A, B (41_alu.md R125). -/
def execXor (a b : Byte) (s : State) : Host.Outcome State Fault Refusal := aluRR .xor a b s

/-- NOT A (41_alu.md R126): one operand, so an advance of 2, and no byte at p+2 is checked. -/
def execNot (a : Byte) (s : State) : Host.Outcome State Fault Refusal :=
  conclude s do
    let ra ← regOperand a
    return (alu .not ra ra s).advance 2

/-- SHL A, B (41_alu.md R127). -/
def execShl (a b : Byte) (s : State) : Host.Outcome State Fault Refusal := aluRR .shl a b s

/-- SHR A, B (41_alu.md R128). -/
def execShr (a b : Byte) (s : State) : Host.Outcome State Fault Refusal := aluRR .shr a b s

end Sys2Proof.Machine
end

