-- ==== Sys2Proof/Machine/Basic.lean ====
section
/-! DEFINITION. HLT, LDI and PRN (40_basic.md). -/

namespace Sys2Proof.Machine

/-- HLT (40_basic.md R100). -/
def execHlt (s : State) : Host.Outcome State Fault Refusal :=
  conclude s (.ok (s.advance 1).halt)

/-- LDI A, imm (40_basic.md R101). -/
def execLdi (a imm : Byte) (s : State) : Host.Outcome State Fault Refusal :=
  conclude s do
    let ra ← regOperand a
    return (s.writeReg ra imm).advance 3

/-- PRN A (40_basic.md R102). -/
def execPrn (a : Byte) (s : State) : Host.Outcome State Fault Refusal :=
  conclude s do
    let ra ← regOperand a
    return (s.emit (s.readReg ra)).advance 2

end Sys2Proof.Machine
end

