-- ==== Sys2Proof/Machine/Control.lean ====
section
/-! DEFINITION. CALL, RET, JMP, JEQ and JNE (43_control.md). -/

namespace Sys2Proof.Machine

/-- CALL A (43_control.md R150): the return address p + 2 must fit a byte cell (60_exceptions.md R176);
the target is read after SP is decremented. -/
def execCall (a : Byte) (s : State) : Host.Outcome State Fault Refusal :=
  conclude s do
    let ra ← regOperand a
    let ret := s.pc.toNat + 2
    if ret > 255 then raise .retAddrRange ret
    else
      let s₁ := s.writeSp s.decSp
      let s₂ ← s₁.memWrite s₁.sp.toNat (trunc8 ret)
      return s₂.jumpTo (s₂.readReg ra)

/-- RET (43_control.md R151). -/
def execRet (s : State) : Host.Outcome State Fault Refusal :=
  conclude s do
    let t ← s.memRead s.sp.toNat
    return (s.writeSp s.incSp).jumpTo t

/-- JMP A (43_control.md R152). -/
def execJmp (a : Byte) (s : State) : Host.Outcome State Fault Refusal :=
  conclude s do
    let ra ← regOperand a
    return s.jumpTo (s.readReg ra)

/-- JEQ A (43_control.md R153): the register check comes first, taken or not (30_encoding.md R83). -/
def execJeq (a : Byte) (s : State) : Host.Outcome State Fault Refusal :=
  conclude s do
    let ra ← regOperand a
    return if s.flE then s.jumpTo (s.readReg ra) else s.advance 2

/-- JNE A (43_control.md R154). -/
def execJne (a : Byte) (s : State) : Host.Outcome State Fault Refusal :=
  conclude s do
    let ra ← regOperand a
    return if s.flE then s.advance 2 else s.jumpTo (s.readReg ra)

end Sys2Proof.Machine
end

