-- ==== Sys2Proof/Machine/Stack.lean ====
section
/-! DEFINITION. PUSH and POP (42_stack.md). -/

namespace Sys2Proof.Machine

/-- PUSH A (42_stack.md R142): SP is decremented first, so `PUSH R7` stores the new SP. -/
def execPush (a : Byte) (s : State) : Host.Outcome State Fault Refusal :=
  conclude s do
    let ra ← regOperand a
    let s₁ := s.writeSp s.decSp
    let s₂ ← s₁.memWrite s₁.sp.toNat (s₁.readReg ra)
    return s₂.advance 2

/-- POP A (42_stack.md R143): x[A] is written before SP is incremented, so `POP R7` leaves the popped
byte plus one. -/
def execPop (a : Byte) (s : State) : Host.Outcome State Fault Refusal :=
  conclude s do
    let ra ← regOperand a
    let v ← s.memRead s.sp.toNat
    let s₁ := s.writeReg ra v
    let s₂ := s₁.writeSp s₁.incSp
    return s₂.advance 2

end Sys2Proof.Machine
end

