-- ==== Sys2Proof/Machine/Fetch.lean ====
section
/-! DEFINITION. Fetch and decode of `Step()` (30_encoding.md R82, R84), and placing an instruction where
it will be fetched. -/

namespace Sys2Proof.Machine

/-- The operand bytes at `a` and `a + 1`, as many as the format has, in that order; nothing beyond the
width is fetched (30_encoding.md R82). A byte the format does not have is 0 here and not looked at. -/
def State.fetchOperands (s : State) (k : Mnemonic) (a : Nat) : Except Raised (Byte × Byte) :=
  match k.format.operandCount with
  | 0 => return (0, 0)
  | 1 => do
    let x ← s.memRead a
    return (x, 0)
  | _ => do
    let x ← s.memRead a
    let y ← s.memRead (a + 1)
    return (x, y)

/-- The lines of `Step()` before the register check (30_encoding.md R84): fetch the opcode, look it up,
fetch the operands. -/
def State.fetchInstr (s : State) : Except Raised Instr := do
  let p := s.pc.toNat
  let op ← s.memRead p
  match s.cfg.opcodeMap.lookup op with
  | none => raise .unknownOpcode op.toNat
  | some k =>
    let (a, b) ← s.fetchOperands k (p + 1)
    return k.build a b

/-- The bytes of up to `n` cells from address `a` up, as far as cells exist. -/
def State.bytesFrom (s : State) : Nat → Nat → List Byte
  | 0, _ => []
  | n + 1, a => if a < s.cfg.memSize then s.mem.read a :: s.bytesFrom n (a + 1) else []

/-- Store bytes in the cells from address `a` up; a byte whose cell does not exist is dropped. -/
def State.placeBytes (s : State) : Nat → List Byte → State
  | _, [] => s
  | a, b :: bs =>
    if a < s.cfg.memSize then (s.setCell a b).placeBytes (a + 1) bs else s

end Sys2Proof.Machine
end

