-- ==== Sys2Proof/Machine/Step.lean ====
section
/-! DEFINITION. One step of the core (30_encoding.md R84). -/

namespace Sys2Proof.Machine

/-- `Step()` of 30_encoding.md R84, run only while RUNNING. A HALTED or FAULTED core stays as it is
(R88, 10_state.md R46: no step is executed): the answer is the same state. DESIGN CHOICE (log 6), safe. -/
def step (s : State) : Host.Outcome State Fault Refusal :=
  match s.runState with
  | .running =>
    match s.fetchInstr with
    | .error f => .next (s.enterFault f)
    | .ok i => counted (exec i s)
  | .halted => .next s
  | .faulted => .next s

/-- `s`, RUNNING, with the instruction whose bits are `w` (as spec/opcode_table.json numbers them) in
the cells at pc (log 10). -/
def State.withFetchWord (s : State) (nbits w : Nat) : State :=
  ({ s with runState := .running } : State).placeBytes s.pc.toNat (tableBytes nbits w)

end Sys2Proof.Machine
end

