-- ==== Sys2Proof/Machine/Transactions.lean ====
section
/-! DEFINITION. The core's boundary (10_state.md R42): the transactions Reset, Output, Debug read and
Result. Run is a relation over steps, in Safety.lean. -/

namespace Sys2Proof.Machine

/-! ## Reset (10_state.md R44, R45) -/

/-- The loader contract (10_state.md R44): the image has at most MEM_SIZE elements, each in 0..255. -/
abbrev imageAccepted (cfg : Config) (image : List Nat) : Prop :=
  image.length ≤ cfg.memSize ∧ ∀ b ∈ image, b ≤ 255

/-- `Reset(image)` on a core with parameters `cfg` (10_state.md R45). A new Reset replaces the old state
(R43, 70_reset_and_hazards.md R201), so the old state is no argument. Parameters outside the allowed
range are refused under their own name (log 11). -/
def resetWith (cfg : Config) (image : List Nat) : Host.Outcome State Fault Refusal :=
  if ¬ cfg.wf then .refused .configRefused
  else if ¬ imageAccepted cfg image then .refused .imageRefused
  else .next (State.initial cfg (Memory.ofImage 0 (image.map trunc8)))

/-! ## Result (10_state.md R49) -/

/-- What Run returns. -/
inductive Result where
  | halted
  | faulted (cause : FaultCause) (pc : Word9) (value : Word9)
  deriving DecidableEq, Repr

/-- The Result of a run that is over (70_reset_and_hazards.md R204); a RUNNING core has none. -/
def State.result (s : State) : Option Result :=
  match s.runState with
  | .running => none
  | .halted => some .halted
  | .faulted => some (.faulted s.faultCause s.faultPc s.faultValue)

/-- The process exit status of a Result: HALTED is 0 and every FAULTED is 1 (10_state.md R49). The 0 is
UNVERIFIED (log 13), unsafe for claims about the process only. -/
def Result.exitCode : Result → Nat
  | .halted => 0
  | .faulted _ _ _ => 1

/-! ## Debug read (10_state.md R48) -/

/-- Any memory cell by address; `none` is "absent", an address of MEM_SIZE or more. -/
def State.debugCell (s : State) (a : Nat) : Option Byte :=
  if a < s.cfg.memSize then some (s.mem.read a) else none

/-- The snapshot of 10_state.md R48. -/
structure Snapshot where
  pc : Word9
  /-- The cells at pc, pc+1 and pc+2. -/
  cell0 : Option Byte
  cell1 : Option Byte
  cell2 : Option Byte
  regs : Vector Byte 8
  fl : Byte
  steps : BitVec 64
  runState : RunState
  faultCause : FaultCause
  faultPc : Word9
  faultValue : Word9
  deriving DecidableEq, Repr

/-- `Debug read`: a function of the state, so it has no side effects. -/
def State.debugRead (s : State) : Snapshot where
  pc := s.pc
  cell0 := s.debugCell s.pc.toNat
  cell1 := s.debugCell (s.pc.toNat + 1)
  cell2 := s.debugCell (s.pc.toNat + 2)
  regs := s.regs
  fl := s.fl
  steps := s.steps
  runState := s.runState
  faultCause := s.faultCause
  faultPc := s.faultPc
  faultValue := s.faultValue

/-! ## Output (10_state.md R38, R47) -/

/-- The decimal digit of a number below 10. -/
def digitChar (d : Nat) : Char := Char.ofNat (48 + d)

/-- The decimal numeral of a byte: no sign, no leading zeros, "0" for zero (10_state.md R47). -/
def decimal (v : Byte) : List Char :=
  let n := v.toNat
  if n < 10 then [digitChar n]
  else if n < 100 then [digitChar (n / 10), digitChar (n % 10)]
  else [digitChar (n / 100), digitChar (n / 10 % 10), digitChar (n % 10)]

/-- One output event as the host renders it: the numeral and a line end. The line end is one line feed,
DESIGN CHOICE (log 14), unsafe for claims about characters only. -/
def renderEvent (v : Byte) : List Char := decimal v ++ [Char.ofNat 10]

/-- The text of an output stream, in order. -/
def State.renderOut (s : State) : List Char := s.out.flatMap renderEvent

end Sys2Proof.Machine
end

