-- ==== Sys2Proof/Machine/Assembly.lean ====
section
/-! DEFINITION. The assembler syntax of 30_encoding.md R90: one line of instructions separated by `;`,
and its bytes. There are no pseudo-instructions, labels or directives (R91). It has no effect on the
machine. Layout beyond R90's words is DESIGN CHOICE (log 15). -/

namespace Sys2Proof.Machine

/-- The mnemonic as it is written (30_encoding.md R78). -/
def mnemonicText : Mnemonic → String
  | .hlt => "HLT"
  | .ldi => "LDI"
  | .prn => "PRN"
  | .add => "ADD"
  | .mul => "MUL"
  | .cmp => "CMP"
  | .and => "AND"
  | .or => "OR"
  | .xor => "XOR"
  | .not => "NOT"
  | .shl => "SHL"
  | .shr => "SHR"
  | .push => "PUSH"
  | .pop => "POP"
  | .call => "CALL"
  | .ret => "RET"
  | .jmp => "JMP"
  | .jeq => "JEQ"
  | .jne => "JNE"

/-- A register as it is written, R0 to R7; `none` for a byte of 8 or more. -/
def regText (r : Byte) : Option (List Char) :=
  if r.toNat < 8 then some ['R', digitChar r.toNat] else none

/-- An instruction as R90 writes it, immediates in decimal; `none` where a register byte names no
register. -/
def instrText (i : Instr) : Option (List Char) :=
  let name := (mnemonicText i.mnemonic).toList
  match i.mnemonic.format, i.operandBytes with
  | .N, [] => some name
  | .R, [a] => do
    let ta ← regText a
    return name ++ [' '] ++ ta
  | .RR, [a, b] => do
    let ta ← regText a
    let tb ← regText b
    return name ++ [' '] ++ ta ++ [',', ' '] ++ tb
  | .RI, [a, imm] => do
    let ta ← regText a
    return name ++ [' '] ++ ta ++ [',', ' '] ++ decimal imm
  | _, _ => none

/-- Cut a text at every `sep`. -/
def splitAt (sep : Char) : List Char → List (List Char)
  | [] => [[]]
  | c :: cs =>
    if c = sep then [] :: splitAt sep cs
    else
      match splitAt sep cs with
      | [] => [[c]]
      | w :: ws => (c :: w) :: ws

/-- A text without the spaces at its two ends. -/
def trim (t : List Char) : List Char :=
  ((t.dropWhile (· = ' ')).reverse.dropWhile (· = ' ')).reverse

/-- The value of a digit in a base of at most 16. -/
def digitValue (base : Nat) (c : Char) : Option Nat :=
  let n := c.toNat
  let v := if 48 ≤ n ∧ n ≤ 57 then some (n - 48)
    else if 65 ≤ n ∧ n ≤ 70 then some (n - 55)
    else if 97 ≤ n ∧ n ≤ 102 then some (n - 87)
    else none
  match v with
  | some d => if d < base then some d else none
  | none => none

/-- The value of a string of digits, most significant first, after `acc`. -/
def digitsValue (base : Nat) : Nat → List Char → Option Nat
  | acc, [] => some acc
  | acc, c :: cs =>
    match digitValue base c with
    | some d => digitsValue base (acc * base + d) cs
    | none => none

/-- At least one digit, and a value from 0 to 255. -/
def byteOfDigits (base : Nat) (ds : List Char) : Option Byte :=
  if ds = [] then none
  else
    match digitsValue base 0 ds with
    | some v => if v ≤ 255 then some (trunc8 v) else none
    | none => none

/-- An immediate in decimal, `0x` hex or `0b` binary, from 0 to 255 (30_encoding.md R90). -/
def parseImm : List Char → Option Byte
  | '0' :: 'x' :: ds => byteOfDigits 16 ds
  | '0' :: 'b' :: ds => byteOfDigits 2 ds
  | ds => byteOfDigits 10 ds

/-- A register name R0 to R7; `SP` is not one (30_encoding.md R90). -/
def parseReg : List Char → Option Byte
  | ['R', d] =>
    match digitValue 8 d with
    | some v => some (trunc8 v)
    | none => none
  | _ => none

/-- The mnemonic a word spells. -/
def parseMnemonic (w : List Char) : Option Mnemonic :=
  Mnemonic.all.find? fun k => (mnemonicText k).toList == w

/-- One instruction: the mnemonic, then its operands separated by commas (30_encoding.md R90). -/
def parseInstr (t : List Char) : Option Instr := do
  let t := trim t
  let k ← parseMnemonic (t.takeWhile (· ≠ ' '))
  let rest := trim (t.dropWhile (· ≠ ' '))
  let ops := if rest = [] then [] else (splitAt ',' rest).map trim
  match k.format, ops with
  | .N, [] => return k.build 0 0
  | .R, [a] => return k.build (← parseReg a) 0
  | .RR, [a, b] => return k.build (← parseReg a) (← parseReg b)
  | .RI, [a, imm] => return k.build (← parseReg a) (← parseImm imm)
  | _, _ => none

/-- The instructions of one line; a `;` separates two of them (30_encoding.md R90). -/
def parseLine (t : List Char) : Option (List Instr) :=
  (splitAt ';' t).mapM parseInstr

/-- The bytes of one line of assembly under an opcode map. -/
def assembleLine (m : OpcodeMap) (t : List Char) : Option (List Byte) :=
  match parseLine t with
  | some is => some (is.flatMap (encode m))
  | none => none

end Sys2Proof.Machine
end

