-- ==== Sys2Proof/Safety.lean ====
section
/-! DEFINITION. Well-formed states, runs, and the end of a run, in the terms the statements use. -/

namespace Sys2Proof.Machine

/-- The values FL can hold: no flag, or exactly one of E, G and L (10_state.md R27, 41_alu.md R115). -/
abbrev flLegal (fl : Byte) : Prop := fl = 0 ∨ fl = flagE ∨ fl = flagG ∨ fl = flagL

/-- The fault record agrees with RUN_STATE: cleared unless FAULTED (10_state.md R35, R41); in FAULTED it
names a cause some step raises (60_exceptions.md R170, R172), and FAULT_PC is the pc the core stopped at
(R178). -/
abbrev State.recordOk (s : State) : Prop :=
  (s.runState ≠ .faulted → s.faultCause = .none ∧ s.faultPc = 0 ∧ s.faultValue = 0) ∧
  (s.runState = .faulted →
    s.faultCause ≠ .none ∧ s.faultCause ≠ .unsupportedAluOp ∧ s.faultPc = s.pc)

/-- The states the rules allow: allowed parameters, canonical memory within MEM_SIZE, a pc that is a byte
or MEM_SIZE (10_state.md R24, 43_control.md R155; log 7), a legal FL, and a fault record that agrees
with RUN_STATE. -/
structure State.Inv (s : State) : Prop where
  cfg : s.cfg.wf
  memCanonical : s.mem.wf = true
  memBelow : s.mem.below s.cfg.memSize = true
  pcRange : s.pc.toNat ≤ s.cfg.memSize ∨ s.pc.toNat ≤ 255
  fl : flLegal s.fl
  record : s.recordOk

/-- The operand byte that names a register. -/
def regByte (r : RegIdx) : Byte := trunc8 r.val

/-- What 60_exceptions.md R178 leaves of a state whose step raised a fault: four fields written, the rest
as before the step. -/
def State.afterFault (s : State) (cause : FaultCause) (value : Nat) : State :=
  { s with
    runState := .faulted
    faultCause := cause
    faultPc := s.pc
    faultValue := BitVec.ofNat 9 value }

/-- An instruction with one register operand raises REG_RANGE on a byte of 8 or more (30_encoding.md
R83). -/
def ChecksItsRegister (mk : Byte → Instr) : Prop :=
  ∀ (s : State) (a : Byte), 8 ≤ a.toNat → exec (mk a) s = .next (s.afterFault .regRange a.toNat)

/-- An instruction with two register operands raises REG_RANGE on the first byte of 8 or more, A before B
(30_encoding.md R83). -/
def ChecksBothRegisters (mk : Byte → Byte → Instr) : Prop :=
  ∀ (s : State) (a b : Byte),
    (8 ≤ a.toNat → exec (mk a b) s = .next (s.afterFault .regRange a.toNat)) ∧
    (a.toNat < 8 → 8 ≤ b.toNat → exec (mk a b) s = .next (s.afterFault .regRange b.toNat))

/-- The operand bytes of `k` are fetched from cells that exist: the first that does not raises ADDR_RANGE
of its address (30_encoding.md R82, R84). -/
def OperandsMustExist (k : Mnemonic) : Prop :=
  ∀ s : State, s.runState = .running → s.pc.toNat < s.cfg.memSize →
    s.cfg.opcodeMap.lookup (s.mem.read s.pc.toNat) = some k →
    (1 ≤ k.format.operandCount → s.cfg.memSize ≤ s.pc.toNat + 1 →
      step s = .next (s.afterFault .addrRange (s.pc.toNat + 1))) ∧
    (k.format.operandCount = 2 → s.pc.toNat + 2 = s.cfg.memSize →
      step s = .next (s.afterFault .addrRange (s.pc.toNat + 2)))

/-- `t` differs from `s` at most in pc, in the registers `rs` and in the memory cells `cells`. -/
structure Frame (rs : List RegIdx) (cells : List Nat) (s t : State) : Prop where
  regs : ∀ q, q ∉ rs → t.readReg q = s.readReg q
  mem : ∀ a, a ∉ cells → t.mem.read a = s.mem.read a
  fl : t.fl = s.fl
  out : t.out = s.out
  cfg : t.cfg = s.cfg
  runState : t.runState = s.runState
  faultCause : t.faultCause = s.faultCause
  faultPc : t.faultPc = s.faultPc
  faultValue : t.faultValue = s.faultValue
  steps : t.steps = s.steps
  draws : t.draws = s.draws

/-- The registers an instruction may write: the "writes" column of 10_state.md R23. -/
def regWrites : Instr → List Nat
  | .hlt => []
  | .ldi a _ => [a.toNat]
  | .prn _ => []
  | .add a _ => [a.toNat]
  | .mul a _ => [a.toNat]
  | .cmp _ _ => []
  | .and a _ => [a.toNat]
  | .or a _ => [a.toNat]
  | .xor a _ => [a.toNat]
  | .not a => [a.toNat]
  | .shl a _ => [a.toNat]
  | .shr a _ => [a.toNat]
  | .push _ => [7]
  | .pop a => [a.toNat, 7]
  | .call _ => [7]
  | .ret => [7]
  | .jmp _ => []
  | .jeq _ => []
  | .jne _ => []

/-- The registers an instruction may read: the "reads" column of 10_state.md R23. -/
def regReads : Instr → List Nat
  | .hlt => []
  | .ldi _ _ => []
  | .prn a => [a.toNat]
  | .add a b => [a.toNat, b.toNat]
  | .mul a b => [a.toNat, b.toNat]
  | .cmp a b => [a.toNat, b.toNat]
  | .and a b => [a.toNat, b.toNat]
  | .or a b => [a.toNat, b.toNat]
  | .xor a b => [a.toNat, b.toNat]
  | .not a => [a.toNat]
  | .shl a b => [a.toNat, b.toNat]
  | .shr a b => [a.toNat, b.toNat]
  | .push a => [7, a.toNat]
  | .pop _ => [7]
  | .call a => [7, a.toNat]
  | .ret => [7]
  | .jmp a => [a.toNat]
  | .jeq a => [a.toNat]
  | .jne a => [a.toNat]

/-- Where an instruction started in `s` sets pc explicitly (30_encoding.md R87): the target of a CALL,
RET or JMP, and of a JEQ or JNE that is taken; `none` is sequential advance. The register of CALL is read
after SP is decremented (43_control.md R150). -/
def explicitTarget (i : Instr) (s : State) : Option Byte :=
  match i with
  | .call a => if h : a.toNat < 8 then some (if a.toNat = 7 then s.decSp else s.readReg ⟨a.toNat, h⟩) else none
  | .ret => some (s.mem.read s.sp.toNat)
  | .jmp a => if h : a.toNat < 8 then some (s.readReg ⟨a.toNat, h⟩) else none
  | .jeq a => if h : a.toNat < 8 then (if s.flE then some (s.readReg ⟨a.toNat, h⟩) else none) else none
  | .jne a => if h : a.toNat < 8 then (if s.flE then none else some (s.readReg ⟨a.toNat, h⟩)) else none
  | .hlt => none
  | .ldi _ _ => none
  | .prn _ => none
  | .add _ _ => none
  | .mul _ _ => none
  | .cmp _ _ => none
  | .and _ _ => none
  | .or _ _ => none
  | .xor _ _ => none
  | .not _ => none
  | .shl _ _ => none
  | .shr _ _ => none
  | .push _ => none
  | .pop _ => none

/-- The cell `a` of a core in state `t` holds `v` for every later fetch (20_memory.md R60): from every state
`u` with the parameters of `t`, that cell as in `t`, and pc at it, the fetch looks `v` up. Where the map has
no entry it raises UNKNOWN_OPCODE(v); where it has one and the operand cells exist, it answers the
instruction with that mnemonic and those cells as operand bytes. -/
def FetchFindsByte (t : State) (a v : Byte) : Prop :=
  ∀ u : State, u.cfg = t.cfg → u.pc = zext9 a → u.mem.read a.toNat = t.mem.read a.toNat →
    (u.cfg.opcodeMap.lookup v = none →
      u.fetchInstr = raise .unknownOpcode v.toNat ∧
      (u.runState = .running → step u = .next (u.afterFault .unknownOpcode v.toNat))) ∧
    (∀ k, u.cfg.opcodeMap.lookup v = some k →
      a.toNat + k.format.operandCount < u.cfg.memSize →
      ∃ j, u.fetchInstr = .ok j ∧ j.mnemonic = k ∧
        j.operandBytes = (List.range k.format.operandCount).map fun n => u.mem.read (a.toNat + 1 + n))

/-- A run is over (70_reset_and_hazards.md R204). -/
abbrev State.ended (s : State) : Prop := s.runState ≠ .running

/-- `k` steps from `s` lead to `t`. -/
def StepsTo (k : Nat) (s t : State) : Prop := Host.Core.run Sys2Proof.core k s = .next t

/-- `Run()` from `s` returns with the core in state `t` (10_state.md R46). -/
def RunReturns (s t : State) : Prop := t.ended ∧ ∃ k, StepsTo k s t

/-- `Run()` from `s` never returns (70_reset_and_hazards.md R208). -/
def RunHangs (s : State) : Prop := ∀ k t, StepsTo k s t → t.runState = .running

/-- None of the first `k` steps from `s` runs a CMP. -/
def NoCmpRuns (k : Nat) (s : State) : Prop :=
  ∀ j u, j < k → StepsTo j s u → u.runState = .running → ∀ a b : Byte, u.fetchInstr ≠ .ok (.cmp a b)

/-- `t` is reached from a Reset of a core with parameters `cfg` and image `image`. -/
def Reachable (cfg : Config) (image : List Nat) (t : State) : Prop :=
  ∃ s k, resetWith cfg image = .next s ∧ StepsTo k s t

end Sys2Proof.Machine
end

