-- ==== Sys2Proof/Certificates/Slice0/Obligations.lean ====
section
/-! DEFINITION. The statements for the provers, from the numbered rules of spec/. -/

open Sys2Proof Sys2Proof.Machine

/-! ## Reset, invariant, boundary -/

/-- 10_state.md R41: the value of every piece of state after a Reset, for every allowed configuration and
image. -/
def Obligations.ResetSetsEveryValue : Prop :=
  ∀ (cfg : Config) (image : List Nat), cfg.wf → imageAccepted cfg image →
    ∃ s, resetWith cfg image = .next s ∧
      (∀ r : RegIdx, r ≠ spIdx → s.readReg r = 0) ∧
      s.sp.toNat = cfg.memSize - 1 ∧
      s.pc = 0 ∧ s.fl = 0 ∧
      (∀ i, i < image.length → (s.mem.read i).toNat = image.getD i 0) ∧
      (∀ i, image.length ≤ i → s.mem.read i = 0) ∧
      s.runState = .running ∧
      s.faultCause = .none ∧ s.faultPc = 0 ∧ s.faultValue = 0 ∧
      s.steps = 0 ∧ s.out = [] ∧ s.cfg = cfg

/-- 10_state.md R45: exactly the images that break the loader contract are refused. -/
def Obligations.ResetRefusesExactlyBadImages : Prop :=
  ∀ (cfg : Config) (image : List Nat), cfg.wf →
    ((resetWith cfg image = .refused .imageRefused) ↔
      (cfg.memSize < image.length ∨ ∃ b ∈ image, 255 < b)) ∧
    ((∃ s, resetWith cfg image = .next s) ↔
      (image.length ≤ cfg.memSize ∧ ∀ b ∈ image, b ≤ 255))

/-- Every state a Reset gives is well formed; State.reset is one of them. -/
def Obligations.ResetStatesAreWellFormed : Prop :=
  State.reset.Inv ∧
  resetWith Config.default [] = .next State.reset ∧
  ∀ (cfg : Config) (image : List Nat) (s : State), resetWith cfg image = .next s → s.Inv

/-- Every step keeps the invariant: allowed parameters, canonical memory within MEM_SIZE, a pc in range,
a legal FL (10_state.md R27), and a fault record that agrees with RUN_STATE (R35). -/
def Obligations.EveryStepKeepsInv : Prop :=
  ∀ s t : State, s.Inv → step s = .next t → t.Inv

/-- Two canonical memories with the same content are the same list. -/
def Obligations.CanonicalMemoryIsUnique : Prop :=
  ∀ m n : Memory, m.wf = true → n.wf = true → (∀ a, m.read a = n.read a) → m = n

/-- 10_state.md R48: the cells of the debug read are absent exactly at MEM_SIZE and above. -/
def Obligations.DebugReadShowsCells : Prop :=
  ∀ (s : State) (a : Nat),
    (s.cfg.memSize ≤ a → s.debugCell a = none) ∧
    (a < s.cfg.memSize → s.debugCell a = some (s.mem.read a)) ∧
    s.debugRead.cell0 = s.debugCell s.pc.toNat ∧
    s.debugRead.cell1 = s.debugCell (s.pc.toNat + 1) ∧
    s.debugRead.cell2 = s.debugCell (s.pc.toNat + 2)

/-- 10_state.md R49: the Result of an ended run and its exit status. -/
def Obligations.ResultOfAnEndedRun : Prop :=
  ∀ s : State,
    (s.runState = .running → s.result = none) ∧
    (s.runState = .halted → s.result = some .halted ∧ Result.halted.exitCode = 0) ∧
    (s.runState = .faulted →
      s.result = some (.faulted s.faultCause s.faultPc s.faultValue) ∧
      (Result.faulted s.faultCause s.faultPc s.faultValue).exitCode = 1)

/-! ## Encoding -/

/-- Decoding an encoded instruction gives it back, under every allowed opcode map, with every operand
byte 0..255, whatever follows it. -/
def Obligations.DecodeOfEncodeIsIdentity : Prop :=
  ∀ (m : OpcodeMap) (i : Instr) (rest : List Byte), m.wf →
    decode m (encode m i ++ rest) = .ok (i, rest)

/-- The other direction: the bytes an instruction was decoded from are its encoding. -/
def Obligations.EncodeOfDecodeIsIdentity : Prop :=
  ∀ (m : OpcodeMap) (bytes : List Byte) (i : Instr) (rest : List Byte),
    decode m bytes = .ok (i, rest) → encode m i ++ rest = bytes

/-- Words written out from 30_encoding.md R78 decode to the instructions they stand for. -/
def Obligations.SampleWordsDecode : Prop :=
  decode OpcodeMap.default [0b00000001] = .ok (.hlt, []) ∧
  decode OpcodeMap.default [0b10000010, 3, 200] = .ok (.ldi 3 200, []) ∧
  decode OpcodeMap.default [0b10100000, 1, 2] = .ok (.add 1 2, []) ∧
  decode OpcodeMap.default [0b01101001, 4] = .ok (.not 4, []) ∧
  decode OpcodeMap.default [0b01000110, 7] = .ok (.pop 7, []) ∧
  decode OpcodeMap.default [0b01010101, 5] = .ok (.jeq 5, []) ∧
  decode OpcodeMap.default [0b10000011, 0, 0] = .error (.unknownOpcode 0b10000011)

/-- 30_encoding.md R80: under the default map 237 byte values are illegal, 0x00 among them. -/
def Obligations.DefaultMapHasTheIllegalBytes : Prop :=
  ((List.range 256).filter fun b =>
    (OpcodeMap.default.lookup (trunc8 b)).isNone).length = 237 ∧
  OpcodeMap.default.lookup 0 = none

/-- 30_encoding.md R74: in every byte of the default map, bits 7:6 are the operand count, bit 5 marks
the ALU instructions and bit 4 the control transfers. -/
def Obligations.DefaultMapFollowsTheFieldLayout : Prop :=
  ∀ k : Mnemonic,
    ((OpcodeMap.default.byteOf k).toNat / 64 = k.format.operandCount) ∧
    ((OpcodeMap.default.byteOf k).getLsbD 5 = true ↔
      k ∈ [.add, .mul, .cmp, .and, .or, .xor, .not, .shl, .shr]) ∧
    ((OpcodeMap.default.byteOf k).getLsbD 4 = true ↔ k ∈ [.call, .ret, .jmp, .jeq, .jne])

/-- 30_encoding.md R90: a well-formed instruction written as R90 writes it is read back as itself. -/
def Obligations.AssemblyTextReadsBack : Prop :=
  ∀ i : Instr, i.wellFormed = true →
    ∃ text, instrText i = some text ∧ parseInstr text = some i

/-! ## The step -/

/-- 30_encoding.md R84: where the bytes at pc decode to `i`, a RUNNING core's step is `exec i`, and a step
that raised no fault adds 1 to STEPS. -/
def Obligations.StepRunsTheDecodedInstruction : Prop :=
  ∀ (s : State) (i : Instr) (rest : List Byte), s.runState = .running →
    decode s.cfg.opcodeMap (s.bytesFrom 3 s.pc.toNat) = .ok (i, rest) →
    ∃ t, exec i s = .next t ∧
      step s = .next (if t.runState = .faulted then t else { t with steps := t.steps + 1 })

/-- 60_exceptions.md R177 items 1 to 3 (30_encoding.md R82): which fault the fetch of a RUNNING core
raises, in the order of the rule. -/
def Obligations.FetchFaultsComeInOrder : Prop :=
  ∀ s : State, s.runState = .running →
    (s.cfg.memSize ≤ s.pc.toNat →
      step s = .next (s.afterFault .addrRange s.pc.toNat)) ∧
    (s.pc.toNat < s.cfg.memSize →
      s.cfg.opcodeMap.lookup (s.mem.read s.pc.toNat) = none →
      step s = .next (s.afterFault .unknownOpcode (s.mem.read s.pc.toNat).toNat)) ∧
    (∀ k, s.pc.toNat < s.cfg.memSize →
      s.cfg.opcodeMap.lookup (s.mem.read s.pc.toNat) = some k →
      1 ≤ k.format.operandCount → s.cfg.memSize ≤ s.pc.toNat + 1 →
      step s = .next (s.afterFault .addrRange (s.pc.toNat + 1))) ∧
    (∀ k, s.pc.toNat + 1 < s.cfg.memSize →
      s.cfg.opcodeMap.lookup (s.mem.read s.pc.toNat) = some k →
      k.format.operandCount = 2 → s.cfg.memSize ≤ s.pc.toNat + 2 →
      step s = .next (s.afterFault .addrRange (s.pc.toNat + 2)))

/-- 30_encoding.md R83: the first register operand byte of 8 or more, A before B, raises REG_RANGE with
that byte, and the instruction has no effect. -/
def Obligations.BadRegisterOperandRaisesRegRange : Prop :=
  ∀ (i : Instr) (s : State) (r : Byte),
    i.regBytes.find? (fun x => decide (8 ≤ x.toNat)) = some r →
    exec i s = .next (s.afterFault .regRange r.toNat)

/-- 60_exceptions.md R178: a step that faults writes RUN_STATE and the fault record and nothing else;
pc stays p, and FAULT_PC is p. -/
def Obligations.FaultsArePrecise : Prop :=
  ∀ s t : State, s.runState = .running → step s = .next t → t.runState = .faulted →
    t.faultPc = s.pc ∧
    t = { s with
          runState := .faulted, faultCause := t.faultCause, faultPc := s.pc,
          faultValue := t.faultValue }

/-- 60_exceptions.md R170, R172: the causes a step can raise; UNSUPPORTED_ALU_OP is not among them. -/
def Obligations.RaisedCausesAreTheFour : Prop :=
  ∀ s t : State, s.runState = .running → step s = .next t → t.runState = .faulted →
    t.faultCause = .unknownOpcode ∨ t.faultCause = .regRange ∨
    t.faultCause = .addrRange ∨ t.faultCause = .retAddrRange

/-- 60_exceptions.md R174: with MEM_SIZE = 256, ADDR_RANGE is raised only by the fetch of address 256. -/
def Obligations.FullMemoryFaultsOnlyAtItsEnd : Prop :=
  ∀ s t : State, s.Inv → s.cfg.memSize = 256 → s.runState = .running →
    step s = .next t → t.runState = .faulted → t.faultCause = .addrRange →
    t.faultValue.toNat = 256

/-- 30_encoding.md R88: an ended core stays exactly as it is, however many steps are asked of it
(10_state.md R46). -/
def Obligations.EndedCoreNeverChanges : Prop :=
  ∀ (s : State) (k : Nat) (t : State), s.ended → (StepsTo k s t ↔ t = s)

/-- 30_encoding.md R88: a RUNNING core's step ends HALTED exactly when it completes HLT, and FAULTED
exactly when it does not count as completed. -/
def Obligations.RunStateFollowsItsTable : Prop :=
  ∀ s t : State, s.runState = .running → step s = .next t →
    (t.runState = .halted ↔ s.fetchInstr = .ok .hlt) ∧
    (t.runState = .faulted ↔ t.steps = s.steps) ∧
    (t.runState = .running ↔ t.steps = s.steps + 1 ∧ s.fetchInstr ≠ .ok .hlt)

/-- 10_state.md R46, 70_reset_and_hazards.md R204: a run returns in at most one state, and it hangs exactly
when it never returns. -/
def Obligations.RunReturnsOnceOrHangs : Prop :=
  ∀ s : State,
    (∀ t u, RunReturns s t → RunReturns s u → t = u) ∧
    (RunHangs s ↔ ¬ ∃ t, RunReturns s t)

/-- 10_state.md R36: over any number of steps of a core that is still RUNNING, STEPS has counted every
step, modulo 2^64. -/
def Obligations.StepsCountsEveryStep : Prop :=
  ∀ (k : Nat) (s t : State), StepsTo k s t → t.runState = .running →
    t.steps = s.steps + BitVec.ofNat 64 k

/-- No step ends in a Host fault or a refusal: the core always has a next state. -/
def Obligations.EveryStepAnswers : Prop :=
  ∀ s : State, (∃ t, step s = .next t) ∧ ∀ i : Instr, ∃ t, exec i s = .next t

/-- 10_state.md R39: no step changes the parameters. -/
def Obligations.NoStepChangesConfiguration : Prop :=
  ∀ (s t : State) (k : Nat), StepsTo k s t → t.cfg = s.cfg

/-- 10_state.md R28: only a CMP writes FL. -/
def Obligations.OnlyCmpWritesFl : Prop :=
  ∀ s t : State, step s = .next t → t.fl ≠ s.fl →
    ∃ a b : Byte, s.fetchInstr = .ok (.cmp a b)

/-- 10_state.md R38: OUT changes only by a PRN appending the value of its register. -/
def Obligations.OnlyPrnAppendsToOut : Prop :=
  ∀ s t : State, step s = .next t → t.out ≠ s.out →
    ∃ r : RegIdx, s.fetchInstr = .ok (.prn (regByte r)) ∧ t.out = s.out ++ [s.readReg r]

/-- 10_state.md R33: memory changes only in the one cell at the decremented SP, by PUSH or CALL. -/
def Obligations.OnlyPushAndCallWriteMemory : Prop :=
  ∀ (s t : State) (a : Nat), step s = .next t → t.mem.read a ≠ s.mem.read a →
    a = s.decSp.toNat ∧ ∃ r : Byte, s.fetchInstr = .ok (.push r) ∨ s.fetchInstr = .ok (.call r)

/-- 10_state.md R23: an instruction writes only the registers of its "writes" column, and what it does
depends only on the registers of its "reads" column: with any other register file that agrees on those,
it ends the same way and gives the written registers the same values. -/
def Obligations.RegisterTableBoundsReadsAndWrites : Prop :=
  ∀ (i : Instr) (s : State) (regs : Vector Byte 8),
    (∀ q : RegIdx, q.val ∈ regReads i → regs[q] = s.readReg q) →
    ∃ t u, exec i s = .next t ∧ exec i { s with regs := regs } = .next u ∧
      (∀ q : RegIdx, q.val ∉ regWrites i → t.readReg q = s.readReg q) ∧
      (∀ q : RegIdx, q.val ∉ regWrites i → u.readReg q = regs[q]) ∧
      u = { t with regs := u.regs } ∧
      (s.runState ≠ .faulted → t.runState ≠ .faulted →
        ∀ q : RegIdx, q.val ∈ regWrites i → u.readReg q = t.readReg q)

/-- 30_encoding.md R87 (10_state.md R25): a completed step of a RUNNING core sets pc to the explicit
target, zero-extended, or to exactly p + width, which is at most MEM_SIZE. -/
def Obligations.NextPcIsTargetOrExactAdvance : Prop :=
  ∀ (s t : State) (i : Instr), s.cfg.wf → s.runState = .running → s.fetchInstr = .ok i →
    step s = .next t → t.runState ≠ .faulted →
    (∀ v, explicitTarget i s = some v → t.pc.toNat = v.toNat) ∧
    (explicitTarget i s = none →
      t.pc.toNat = s.pc.toNat + i.width ∧ s.pc.toNat + i.width ≤ s.cfg.memSize)

/-- 30_encoding.md R82, R81: the fetch depends on the bytes of the instruction's own width alone. -/
def Obligations.FetchLooksAtItsWidthOnly : Prop :=
  ∀ (s : State) (i : Instr) (mem : Memory), s.fetchInstr = .ok i →
    (∀ j, j < i.width → mem.read (s.pc.toNat + j) = s.mem.read (s.pc.toNat + j)) →
    ({ s with mem := mem } : State).fetchInstr = .ok i

/-- 30_encoding.md R79: an instruction's effect does not depend on the byte values of the opcode map. -/
def Obligations.ExecIgnoresTheOpcodeMap : Prop :=
  ∀ (i : Instr) (s : State) (m : OpcodeMap),
    ∃ t, exec i s = .next t ∧
      exec i { s with cfg := { s.cfg with opcodeMap := m } } =
        .next { t with cfg := { t.cfg with opcodeMap := m } }

/-- 43_control.md R155: a transfer to a target of MEM_SIZE or above completes (a CALL or RET, unless it
has a fault of its own), and the next step raises ADDR_RANGE(target) with FAULT_PC the target. -/
def Obligations.OutOfRangeTargetFaultsAtTheNextFetch : Prop :=
  ∀ (s : State) (i : Instr) (v : Byte), s.cfg.wf → s.runState = .running →
    s.fetchInstr = .ok i → explicitTarget i s = some v → s.cfg.memSize ≤ v.toNat →
    (∀ a, i = .call a → s.pc.toNat + 2 ≤ 255) → (i = .ret → s.sp.toNat < s.cfg.memSize) →
    ∃ t, step s = .next t ∧ t.runState = .running ∧ t.pc.toNat = v.toNat ∧
      step t = .next (t.afterFault .addrRange v.toNat)

/-- 43_control.md R152, 70_reset_and_hazards.md R208: a JMP to its own address runs for ever. -/
def Obligations.JmpToItselfHangs : Prop :=
  ∀ (s : State) (r : RegIdx), s.runState = .running → s.fetchInstr = .ok (.jmp (regByte r)) →
    (s.readReg r).toNat = s.pc.toNat → RunHangs s

/-! ## HLT, LDI, PRN -/

/-- 40_basic.md R100: HLT advances pc and halts; the step that executes it counts, and Run's Result is
HALTED. -/
def Obligations.HltHalts : Prop :=
  encode OpcodeMap.default .hlt = [0x01] ∧
  (∀ s : State, ∃ t, exec .hlt s = .next t ∧
    t.runState = .halted ∧ t.pc = s.pc + 1 ∧ Frame [] [] { s with runState := .halted } t) ∧
  ∀ s : State, s.runState = .running → s.fetchInstr = .ok .hlt →
    ∃ t, step s = .next t ∧ t.result = some .halted ∧ t.pc = s.pc + 1 ∧ t.steps = s.steps + 1

/-- 40_basic.md R101, for every register, R7 included, and every immediate; a PRN that follows outputs
the immediate. -/
def Obligations.LdiLoadsItsImmediate : Prop :=
  (∀ a v : Byte, encode OpcodeMap.default (.ldi a v) = [0x82, a, v]) ∧
  (∀ v : Byte, ChecksItsRegister fun a => .ldi a v) ∧ OperandsMustExist .ldi ∧
  ∀ (s : State) (a : RegIdx) (v : Byte), ∃ t, exec (.ldi (regByte a) v) s = .next t ∧
    t.readReg a = v ∧ t.pc = s.pc + 3 ∧ Frame [a] [] s t ∧
    ∃ u, exec (.prn (regByte a)) t = .next u ∧ u.out = s.out ++ [v]

/-- 40_basic.md R102. -/
def Obligations.PrnEmitsItsRegister : Prop :=
  (∀ a : Byte, encode OpcodeMap.default (.prn a) = [0x47, a]) ∧
  ChecksItsRegister .prn ∧ OperandsMustExist .prn ∧
  ∀ (s : State) (a : RegIdx), ∃ t, exec (.prn (regByte a)) s = .next t ∧
    t.out = s.out ++ [s.readReg a] ∧ t.pc = s.pc + 2 ∧
    Frame [] [] { s with out := s.out ++ [s.readReg a] } t

/-! ## The ALU instructions -/

/-- 41_alu.md R120; a PRN of A that follows outputs the sum. -/
def Obligations.AddWritesTheSum : Prop :=
  (∀ a b : Byte, encode OpcodeMap.default (.add a b) = [0xA0, a, b]) ∧
  ChecksBothRegisters .add ∧ OperandsMustExist .add ∧
  ∀ (s : State) (a b : RegIdx), ∃ t, exec (.add (regByte a) (regByte b)) s = .next t ∧
    (t.readReg a).toNat = ((s.readReg a).toNat + (s.readReg b).toNat) % 256 ∧
    t.pc = s.pc + 3 ∧ Frame [a] [] s t ∧
    ∃ u, exec (.prn (regByte a)) t = .next u ∧
      u.out = s.out ++ [trunc8 ((s.readReg a).toNat + (s.readReg b).toNat)]

/-- 41_alu.md R121; a PRN of A that follows outputs the low byte of the product. -/
def Obligations.MulWritesTheLowProduct : Prop :=
  (∀ a b : Byte, encode OpcodeMap.default (.mul a b) = [0xA2, a, b]) ∧
  ChecksBothRegisters .mul ∧ OperandsMustExist .mul ∧
  ∀ (s : State) (a b : RegIdx), ∃ t, exec (.mul (regByte a) (regByte b)) s = .next t ∧
    (t.readReg a).toNat = ((s.readReg a).toNat * (s.readReg b).toNat) % 256 ∧
    t.pc = s.pc + 3 ∧ Frame [a] [] s t ∧
    ∃ u, exec (.prn (regByte a)) t = .next u ∧
      u.out = s.out ++ [trunc8 ((s.readReg a).toNat * (s.readReg b).toNat)]

/-- 41_alu.md R122 with R115: CORRECTED sets exactly E (bit 0), G (bit 1) or L (bit 2); LEGACY agrees
except where va > vb, where FL is left or cleared. -/
def Obligations.CmpWritesTheFlags : Prop :=
  (∀ a b : Byte, encode OpcodeMap.default (.cmp a b) = [0xA7, a, b]) ∧
  ChecksBothRegisters .cmp ∧ OperandsMustExist .cmp ∧
  ∀ (s : State) (a b : RegIdx), ∃ t, exec (.cmp (regByte a) (regByte b)) s = .next t ∧
    ((s.readReg a).toNat = (s.readReg b).toNat → t.fl = 0b00000001) ∧
    ((s.readReg a).toNat < (s.readReg b).toNat → t.fl = 0b00000100) ∧
    (s.cfg.cmpMode = .corrected → (s.readReg b).toNat < (s.readReg a).toNat →
      t.fl = 0b00000010) ∧
    (s.cfg.cmpMode = .legacy → (s.readReg b).toNat < (s.readReg a).toNat →
      t.fl = s.fl ∨ t.fl = 0) ∧
    t.pc = s.pc + 3 ∧ Frame [] [] { s with fl := t.fl, draws := t.draws } t

/-- 41_alu.md R123, R124, R125: bit by bit. -/
def Obligations.BitwiseInstructionsWorkBitByBit : Prop :=
  (∀ a b : Byte,
    encode OpcodeMap.default (.and a b) = [0xA8, a, b] ∧
    encode OpcodeMap.default (.or a b) = [0xAA, a, b] ∧
    encode OpcodeMap.default (.xor a b) = [0xAB, a, b]) ∧
  ChecksBothRegisters .and ∧ ChecksBothRegisters .or ∧ ChecksBothRegisters .xor ∧
  OperandsMustExist .and ∧ OperandsMustExist .or ∧ OperandsMustExist .xor ∧
  ∀ (s : State) (a b : RegIdx),
    (∃ t, exec (.and (regByte a) (regByte b)) s = .next t ∧
      (∀ k, (t.readReg a).getLsbD k = ((s.readReg a).getLsbD k && (s.readReg b).getLsbD k)) ∧
      t.pc = s.pc + 3 ∧ Frame [a] [] s t) ∧
    (∃ t, exec (.or (regByte a) (regByte b)) s = .next t ∧
      (∀ k, (t.readReg a).getLsbD k = ((s.readReg a).getLsbD k || (s.readReg b).getLsbD k)) ∧
      t.pc = s.pc + 3 ∧ Frame [a] [] s t) ∧
    (∃ t, exec (.xor (regByte a) (regByte b)) s = .next t ∧
      (∀ k, (t.readReg a).getLsbD k = ((s.readReg a).getLsbD k ^^ (s.readReg b).getLsbD k)) ∧
      t.pc = s.pc + 3 ∧ Frame [a] [] s t)

/-- 41_alu.md R126: 255 − va, and an advance of 2. The byte at p+2 is neither fetched nor checked: the
step completes where there is no such cell, and whatever such a cell holds. -/
def Obligations.NotWritesTheComplement : Prop :=
  (∀ a : Byte, encode OpcodeMap.default (.not a) = [0x69, a]) ∧
  ChecksItsRegister .not ∧ OperandsMustExist .not ∧
  (∀ (s : State) (a : RegIdx), s.cfg.wf → s.runState = .running →
    s.pc.toNat + 2 ≤ s.cfg.memSize →
    s.cfg.opcodeMap.lookup (s.mem.read s.pc.toNat) = some .not →
    s.mem.read (s.pc.toNat + 1) = regByte a →
    ∃ t, step s = .next t ∧ t.runState = .running ∧
      (t.readReg a).toNat = 255 - (s.readReg a).toNat ∧ t.pc.toNat = s.pc.toNat + 2) ∧
  ∀ (s : State) (a : RegIdx), ∃ t, exec (.not (regByte a)) s = .next t ∧
    (t.readReg a).toNat = 255 - (s.readReg a).toNat ∧
    t.pc = s.pc + 2 ∧ Frame [a] [] s t

/-- 41_alu.md R127 with R116: the amount is the whole byte, and 8 or more gives 0. -/
def Obligations.ShlShiftsByTheWholeByte : Prop :=
  (∀ a b : Byte, encode OpcodeMap.default (.shl a b) = [0xAC, a, b]) ∧
  ChecksBothRegisters .shl ∧ OperandsMustExist .shl ∧
  ∀ (s : State) (a b : RegIdx), ∃ t, exec (.shl (regByte a) (regByte b)) s = .next t ∧
    (t.readReg a).toNat = ((s.readReg a).toNat * 2 ^ (s.readReg b).toNat) % 256 ∧
    (8 ≤ (s.readReg b).toNat → t.readReg a = 0) ∧
    t.pc = s.pc + 3 ∧ Frame [a] [] s t

/-- 41_alu.md R128 with R116: logical, the amount is the whole byte, and 8 or more gives 0. -/
def Obligations.ShrShiftsByTheWholeByte : Prop :=
  (∀ a b : Byte, encode OpcodeMap.default (.shr a b) = [0xAD, a, b]) ∧
  ChecksBothRegisters .shr ∧ OperandsMustExist .shr ∧
  ∀ (s : State) (a b : RegIdx), ∃ t, exec (.shr (regByte a) (regByte b)) s = .next t ∧
    (t.readReg a).toNat = (s.readReg a).toNat / 2 ^ (s.readReg b).toNat ∧
    (8 ≤ (s.readReg b).toNat → t.readReg a = 0) ∧
    t.pc = s.pc + 3 ∧ Frame [a] [] s t

/-! ## The stack -/

/-- 42_stack.md R140: both results are the integer residues modulo MEM_SIZE, and with 256 cells they
are plain 8-bit wrap-around. -/
def Obligations.SpArithmeticWrapsInMemory : Prop :=
  ∀ s : State, s.cfg.wf →
    (s.decSp.toNat : Int) = ((s.sp.toNat : Int) - 1) % (s.cfg.memSize : Int) ∧
    (s.incSp.toNat : Int) = ((s.sp.toNat : Int) + 1) % (s.cfg.memSize : Int) ∧
    s.decSp.toNat < s.cfg.memSize ∧ s.incSp.toNat < s.cfg.memSize ∧
    (s.cfg.memSize = 256 → s.decSp = s.sp - 1 ∧ s.incSp = s.sp + 1)

/-- 42_stack.md R142: SP is decremented, then x[A] is stored there; `PUSH R7` stores the new SP. -/
def Obligations.PushStoresBelowTheStack : Prop :=
  (∀ a : Byte, encode OpcodeMap.default (.push a) = [0x45, a]) ∧
  ChecksItsRegister .push ∧ OperandsMustExist .push ∧
  ∀ (s : State) (a : RegIdx), s.cfg.wf → s.mem.wf = true →
    ∃ t, exec (.push (regByte a)) s = .next t ∧
      t.sp = s.decSp ∧
      t.mem.read s.decSp.toNat = (if a = spIdx then s.decSp else s.readReg a) ∧
      t.pc = s.pc + 2 ∧ Frame [spIdx] [s.decSp.toNat] s t

/-- 42_stack.md R143: x[A] takes the byte at SP, then x[7] is incremented; `POP R7` leaves the popped
byte plus one, modulo MEM_SIZE. Above memory it raises ADDR_RANGE(SP). -/
def Obligations.PopTakesTheTopOfTheStack : Prop :=
  (∀ a : Byte, encode OpcodeMap.default (.pop a) = [0x46, a]) ∧
  ChecksItsRegister .pop ∧ OperandsMustExist .pop ∧
  ∀ (s : State) (a : RegIdx), s.cfg.wf →
    (s.sp.toNat < s.cfg.memSize →
      ∃ t, exec (.pop (regByte a)) s = .next t ∧
        (a ≠ spIdx → t.readReg a = s.mem.read s.sp.toNat ∧ t.sp = s.incSp) ∧
        (a = spIdx →
          t.sp.toNat = ((s.mem.read s.sp.toNat).toNat + 1) % s.cfg.memSize) ∧
        t.pc = s.pc + 2 ∧ Frame [a, spIdx] [] s t) ∧
    (s.cfg.memSize ≤ s.sp.toNat →
      exec (.pop (regByte a)) s = .next (s.afterFault .addrRange s.sp.toNat))

/-- 42_stack.md R144: PUSH r then POP r leaves the registers as they were when SP was a valid address,
and only the pushed cell changes; when SP was not one, SP ends at (s′ + 1) mod MEM_SIZE, which is not
what it was. -/
def Obligations.PushThenPopRestores : Prop :=
  ∀ (s : State) (r : RegIdx), s.cfg.wf → s.mem.wf = true →
    ∃ t u, exec (.push (regByte r)) s = .next t ∧ exec (.pop (regByte r)) t = .next u ∧
      (s.sp.toNat < s.cfg.memSize → ∀ q, u.readReg q = s.readReg q) ∧
      (s.cfg.memSize ≤ s.sp.toNat →
        u.sp.toNat = (s.decSp.toNat + 1) % s.cfg.memSize ∧ u.sp ≠ s.sp) ∧
      (∀ a, a ≠ s.decSp.toNat → u.mem.read a = s.mem.read a)

/-- 20_memory.md R60: the byte that a PUSH or a CALL stored is what every later fetch of that cell finds. -/
def Obligations.StoredByteIsFetched : Prop :=
  ∀ (s : State) (a : RegIdx), s.cfg.wf → s.mem.wf = true →
    (∃ t, exec (.push (regByte a)) s = .next t ∧
      FetchFindsByte t s.decSp (if a = spIdx then s.decSp else s.readReg a)) ∧
    (s.pc.toNat + 2 ≤ 255 →
      ∃ t, exec (.call (regByte a)) s = .next t ∧
        FetchFindsByte t s.decSp (trunc8 (s.pc.toNat + 2)))

/-! ## Control transfer -/

/-- 43_control.md R150: the return address p + 2 goes to the decremented SP and pc takes the register,
read after the decrement; where p + 2 does not fit a byte, RETADDR_RANGE (60_exceptions.md R176). -/
def Obligations.CallStoresItsReturnAddress : Prop :=
  (∀ a : Byte, encode OpcodeMap.default (.call a) = [0x50, a]) ∧
  ChecksItsRegister .call ∧ OperandsMustExist .call ∧
  ∀ (s : State) (a : RegIdx), s.cfg.wf → s.mem.wf = true →
    (s.pc.toNat + 2 ≤ 255 →
      ∃ t, exec (.call (regByte a)) s = .next t ∧
        t.sp = s.decSp ∧
        (t.mem.read s.decSp.toNat).toNat = s.pc.toNat + 2 ∧
        t.pc.toNat = (if a = spIdx then s.decSp else s.readReg a).toNat ∧
        Frame [spIdx] [s.decSp.toNat] s t) ∧
    (255 < s.pc.toNat + 2 →
      exec (.call (regByte a)) s = .next (s.afterFault .retAddrRange (s.pc.toNat + 2)))

/-- 43_control.md R151: pc takes the byte at SP, and SP is incremented. Above memory it raises
ADDR_RANGE(SP). -/
def Obligations.RetTakesTheTopOfTheStack : Prop :=
  encode OpcodeMap.default .ret = [0x11] ∧
  ∀ s : State,
    (s.sp.toNat < s.cfg.memSize →
      ∃ t, exec .ret s = .next t ∧
        t.pc.toNat = (s.mem.read s.sp.toNat).toNat ∧ t.sp = s.incSp ∧ Frame [spIdx] [] s t) ∧
    (s.cfg.memSize ≤ s.sp.toNat →
      exec .ret s = .next (s.afterFault .addrRange s.sp.toNat))

/-- 43_control.md R157: whatever ran after a CALL, a RET that finds SP and the return cell as the CALL
left them resumes at p + 2 with the pre-call SP. -/
def Obligations.RetResumesAfterTheCall : Prop :=
  ∀ (s : State) (a : RegIdx), s.cfg.wf → s.mem.wf = true → s.sp.toNat < s.cfg.memSize →
    s.pc.toNat + 2 ≤ 255 →
    ∃ t, exec (.call (regByte a)) s = .next t ∧
      ∀ u : State, u.cfg = t.cfg → u.sp = t.sp →
        u.mem.read t.sp.toNat = t.mem.read t.sp.toNat →
        ∃ v, exec .ret u = .next v ∧ v.pc.toNat = s.pc.toNat + 2 ∧ v.sp = s.sp

/-- 43_control.md R152. -/
def Obligations.JmpSetsPc : Prop :=
  (∀ a : Byte, encode OpcodeMap.default (.jmp a) = [0x54, a]) ∧
  ChecksItsRegister .jmp ∧ OperandsMustExist .jmp ∧
  ∀ (s : State) (a : RegIdx), ∃ t, exec (.jmp (regByte a)) s = .next t ∧
    t.pc.toNat = (s.readReg a).toNat ∧ Frame [] [] s t

/-- 43_control.md R153: FL.E is bit 0 of FL; G and L do not matter. -/
def Obligations.JeqJumpsWhenEqual : Prop :=
  (∀ a : Byte, encode OpcodeMap.default (.jeq a) = [0x55, a]) ∧
  ChecksItsRegister .jeq ∧ OperandsMustExist .jeq ∧
  ∀ (s : State) (a : RegIdx), ∃ t, exec (.jeq (regByte a)) s = .next t ∧
    (s.fl.getLsbD 0 = true → t.pc.toNat = (s.readReg a).toNat) ∧
    (s.fl.getLsbD 0 = false → t.pc = s.pc + 2) ∧ Frame [] [] s t

/-- 43_control.md R154. -/
def Obligations.JneJumpsWhenNotEqual : Prop :=
  (∀ a : Byte, encode OpcodeMap.default (.jne a) = [0x56, a]) ∧
  ChecksItsRegister .jne ∧ OperandsMustExist .jne ∧
  ∀ (s : State) (a : RegIdx), ∃ t, exec (.jne (regByte a)) s = .next t ∧
    (s.fl.getLsbD 0 = false → t.pc.toNat = (s.readReg a).toNat) ∧
    (s.fl.getLsbD 0 = true → t.pc = s.pc + 2) ∧ Frame [] [] s t

/-- 43_control.md R158: after CMP a,b, exactly one of JEQ and JNE is taken, JEQ on equal values (in both
modes) and JNE on unequal ones (CORRECTED, and LEGACY unless va > vb). -/
def Obligations.CmpDecidesTheNextBranch : Prop :=
  ∀ (s : State) (a b r : RegIdx),
    ∃ t u v, exec (.cmp (regByte a) (regByte b)) s = .next t ∧
      exec (.jeq (regByte r)) t = .next u ∧ exec (.jne (regByte r)) t = .next v ∧
      ((s.readReg a).toNat = (s.readReg b).toNat →
        u.pc.toNat = (s.readReg r).toNat ∧ v.pc = s.pc + 5) ∧
      ((s.readReg a).toNat ≠ (s.readReg b).toNat →
        (s.cfg.cmpMode = .corrected ∨ (s.readReg a).toNat < (s.readReg b).toNat) →
        u.pc = s.pc + 5 ∧ v.pc.toNat = (s.readReg r).toNat)

/-- 10_state.md R30: over any number of steps from a Reset in which no CMP runs, FL is 0, so JEQ is not
taken and JNE is taken. -/
def Obligations.BranchesBeforeTheFirstCmp : Prop :=
  ∀ (cfg : Config) (image : List Nat) (k : Nat) (s t : State) (r : RegIdx),
    resetWith cfg image = .next s → StepsTo k s t → NoCmpRuns k s →
    t.fl = 0 ∧
    ∃ u v, exec (.jeq (regByte r)) t = .next u ∧ u.pc = t.pc + 2 ∧
      exec (.jne (regByte r)) t = .next v ∧ v.pc.toNat = (t.readReg r).toNat

/-- 10_state.md R23, the other half of RegisterTableBoundsReadsAndWrites: every register of the "writes"
column is changed by the instruction in some state, and every register of the "reads" column decides, in
some state, something that the instruction writes. Two operands that name the same register are left out:
there AND and OR leave it as it is, and XOR, SHR and CMP give one result whatever it holds. -/
def Obligations.EveryListedRegisterIsUsed : Prop :=
  ∀ i : Instr, i.wellFormed = true → i.regBytes.Nodup →
    (∀ q : RegIdx, q.val ∈ regWrites i →
      ∃ s t, s.Inv ∧ exec i s = .next t ∧ t.runState ≠ .faulted ∧ t.readReg q ≠ s.readReg q) ∧
    (∀ q : RegIdx, q.val ∈ regReads i →
      ∃ s v t u, s.Inv ∧ exec i s = .next t ∧ t.runState ≠ .faulted ∧
        exec i (s.writeReg q v) = .next u ∧ u.runState ≠ .faulted ∧
        (u ≠ { t with regs := u.regs } ∨
          ∃ w : RegIdx, w.val ∈ regWrites i ∧ u.readReg w ≠ t.readReg w))
end

