-- ==== Sys2Proof/Laws/Decode.lean ====
section
/-! SUPPORT. The opcode map and its lookup. -/

namespace Sys2Proof

theorem Mnemonic.mem_all (k : Mnemonic) : k ∈ Mnemonic.all := by cases k <;> decide

/-- A map that keeps R79 gives different bytes to different mnemonics. -/
theorem OpcodeMap.byteOf_injective {m : OpcodeMap} (h : m.wf) {k l : Mnemonic}
    (he : m.byteOf k = m.byteOf l) : k = l :=
  List.inj_on_of_nodup_map h k.mem_all l.mem_all he

/-- Looking up a mnemonic's own byte gives the mnemonic. -/
theorem OpcodeMap.lookup_byteOf {m : OpcodeMap} (h : m.wf) (k : Mnemonic) :
    m.lookup (m.byteOf k) = some k := by
  have hsome : (m.lookup (m.byteOf k)).isSome := by
    rw [OpcodeMap.lookup, List.find?_isSome]
    exact ⟨k, k.mem_all, by simp⟩
  obtain ⟨l, hl⟩ := Option.isSome_iff_exists.mp hsome
  have : m.byteOf l = m.byteOf k := by simpa using List.find?_some hl
  rw [hl, OpcodeMap.byteOf_injective h this]

/-- A lookup that answers a mnemonic was given that mnemonic's byte. -/
theorem OpcodeMap.byteOf_of_lookup {m : OpcodeMap} {op : Byte} {k : Mnemonic}
    (h : m.lookup op = some k) : m.byteOf k = op := by
  simpa using List.find?_some h

theorem OpcodeMap.default_wf : OpcodeMap.default.wf := by decide

theorem Config.default_wf : Config.default.wf := by decide

/-- An instruction is rebuilt from its mnemonic by any two bytes that begin with its operand bytes. -/
theorem Mnemonic.build_mnemonic (k : Mnemonic) (a b : Byte) : (k.build a b).mnemonic = k := by
  cases k <;> rfl

theorem Mnemonic.build_width (k : Mnemonic) (a b : Byte) :
    (k.build a b).width = 1 + k.format.operandCount := by
  cases k <;> rfl

/-- No instruction is longer than three bytes (30_encoding.md R70). -/
theorem Instr.width_le (i : Instr) : i.width ≤ 3 := by
  rw [Instr.width]
  generalize i.mnemonic = k
  cases k <;> decide

end Sys2Proof
end

