-- ==== Sys2Proof/Laws/Memory.lean ====
section
/-! SUPPORT. The laws of the canonical memory: what a write does to every read, and that every memory
operation keeps the canonical form. -/

namespace Sys2Proof.Machine

theorem Memory.wfFrom_mono {m : Memory} {lo lo' : Nat} (hle : lo' ≤ lo) (h : Memory.wfFrom lo m = true) :
    Memory.wfFrom lo' m = true := by
  cases m with
  | nil => rfl
  | cons c m =>
    simp only [Memory.wfFrom, Bool.and_eq_true, decide_eq_true_eq] at h ⊢
    exact ⟨⟨by omega, h.1.2⟩, h.2⟩

/-- A canonical memory from `lo` up lists nothing below `lo`. -/
theorem Memory.read_below {m : Memory} : ∀ {lo a : Nat}, Memory.wfFrom lo m = true → a < lo →
    Memory.read m a = Memory.unlisted := by
  induction m with
  | nil => intros; rfl
  | cons c m ih =>
    intro lo a h ha
    simp only [Memory.wfFrom, Bool.and_eq_true, decide_eq_true_eq] at h
    rw [Memory.read, if_neg (by omega)]
    exact ih h.2 (by omega)

/-- A write leaves every other cell alone (20_memory.md R53). -/
theorem Memory.read_write_other (m : Memory) {a b : Nat} (v : Byte) (hab : b ≠ a) :
    Memory.read (Memory.write m a v) b = Memory.read m b := by
  induction m with
  | nil => simp only [Memory.write]; split <;> simp [Memory.read, hab]
  | cons c m ih =>
    obtain ⟨k, w⟩ := c
    simp only [Memory.write]
    split
    · split <;> simp [Memory.read, hab]
    · split
      · subst_vars; split <;> simp [Memory.read, hab]
      · simp [Memory.read, ih]

theorem Memory.read_write_same_from {m : Memory} (a : Nat) (v : Byte) : ∀ {lo : Nat},
    Memory.wfFrom lo m = true → Memory.read (Memory.write m a v) a = v := by
  induction m with
  | nil => intro _ _; simp only [Memory.write]; split <;> simp_all [Memory.read]
  | cons c m ih =>
    obtain ⟨k, w⟩ := c
    intro lo h
    have h' := h
    simp only [Memory.wfFrom, Bool.and_eq_true, decide_eq_true_eq] at h
    simp only [Memory.write]
    split
    · rename_i hlt
      split
      · rename_i hv
        rw [hv, Memory.read, if_neg (by omega)]
        exact Memory.read_below h.2 (by omega)
      · simp [Memory.read]
    · split
      · rename_i _ heq
        split
        · rename_i hv
          rw [hv]
          exact Memory.read_below h.2 (by omega)
        · simp [Memory.read]
      · rename_i hne
        rw [Memory.read, if_neg hne]
        exact ih h.2

/-- A read after a write to the same cell gives the value written (20_memory.md R58). -/
theorem Memory.read_write_same {m : Memory} (h : m.wf = true) (a : Nat) (v : Byte) :
    Memory.read (Memory.write m a v) a = v :=
  Memory.read_write_same_from a v h

theorem Memory.read_write {m : Memory} (h : m.wf = true) (a b : Nat) (v : Byte) :
    Memory.read (Memory.write m a v) b = if b = a then v else Memory.read m b := by
  split
  · rename_i hb; rw [hb]; exact Memory.read_write_same h a v
  · rename_i hb; exact Memory.read_write_other m v hb

theorem Memory.write_wfFrom {m : Memory} (a : Nat) (v : Byte) : ∀ {lo : Nat},
    Memory.wfFrom lo m = true → lo ≤ a → Memory.wfFrom lo (Memory.write m a v) = true := by
  induction m with
  | nil => intro lo _ ha; simp only [Memory.write]; split <;> simp_all [Memory.wfFrom]
  | cons c m ih =>
    obtain ⟨k, w⟩ := c
    intro lo h ha
    simp only [Memory.wfFrom, Bool.and_eq_true, decide_eq_true_eq] at h
    simp only [Memory.write]
    split
    · split
      · simp only [Memory.wfFrom, Bool.and_eq_true, decide_eq_true_eq]; exact h
      · simp only [Memory.wfFrom, Bool.and_eq_true, decide_eq_true_eq]
        exact ⟨⟨ha, by assumption⟩, ⟨by omega, h.1.2⟩, h.2⟩
    · split
      · split
        · exact Memory.wfFrom_mono (by omega) h.2
        · simp only [Memory.wfFrom, Bool.and_eq_true, decide_eq_true_eq]
          refine ⟨⟨ha, by assumption⟩, ?_⟩
          have := h.2
          subst_vars
          exact this
      · simp only [Memory.wfFrom, Bool.and_eq_true, decide_eq_true_eq]
        exact ⟨h.1, ih h.2 (by omega)⟩

/-- A write keeps the canonical form. -/
theorem Memory.write_wf {m : Memory} (h : m.wf = true) (a : Nat) (v : Byte) :
    (Memory.write m a v).wf = true :=
  Memory.write_wfFrom a v h (Nat.zero_le a)

/-- A write below `n` keeps every listed cell below `n`. -/
theorem Memory.write_below {m : Memory} {n a : Nat} (h : m.below n = true) (ha : a < n) (v : Byte) :
    (Memory.write m a v).below n = true := by
  induction m with
  | nil => simp only [Memory.write]; split <;> simp_all [Memory.below]
  | cons c m ih =>
    obtain ⟨k, w⟩ := c
    simp only [Memory.below, List.all_cons, Bool.and_eq_true, decide_eq_true_eq] at h ih ⊢
    obtain ⟨hk, hm⟩ := h
    have hrest := ih hm
    simp only [Memory.write]
    split
    · split <;> simp only [List.all_cons, Bool.and_eq_true, decide_eq_true_eq] <;> tauto
    · split
      · split
        · exact hm
        · simp only [List.all_cons, Bool.and_eq_true, decide_eq_true_eq]
          exact ⟨ha, hm⟩
      · simp only [List.all_cons, Bool.and_eq_true, decide_eq_true_eq]
        tauto

theorem Memory.ofImage_wfFrom (bs : List Byte) : ∀ base : Nat,
    Memory.wfFrom base (Memory.ofImage base bs) = true := by
  induction bs with
  | nil => intro; rfl
  | cons b bs ih =>
    intro base
    simp only [Memory.ofImage]
    split
    · exact Memory.wfFrom_mono (Nat.le_succ base) (ih (base + 1))
    · simp only [Memory.wfFrom, Bool.and_eq_true, decide_eq_true_eq]
      exact ⟨⟨Nat.le_refl base, by assumption⟩, ih (base + 1)⟩

/-- A loaded image is canonical. -/
theorem Memory.ofImage_wf (bs : List Byte) : (Memory.ofImage 0 bs).wf = true :=
  Memory.ofImage_wfFrom bs 0

theorem Memory.ofImage_below (bs : List Byte) : ∀ base n : Nat, base + bs.length ≤ n →
    (Memory.ofImage base bs).below n = true := by
  induction bs with
  | nil => intros; rfl
  | cons b bs ih =>
    intro base n h
    simp only [List.length_cons] at h
    have := ih (base + 1) n (by omega)
    simp only [Memory.ofImage, Memory.below] at this ⊢
    split
    · exact this
    · simp only [List.all_cons, Bool.and_eq_true, decide_eq_true_eq]
      exact ⟨by omega, this⟩

/-- image[i] is in cell base + i, and every other cell holds the reset content (10_state.md R41). -/
theorem Memory.read_ofImage (bs : List Byte) : ∀ base i : Nat,
    Memory.read (Memory.ofImage base bs) (base + i) = bs.getD i Memory.unlisted := by
  induction bs with
  | nil => intros; rfl
  | cons b bs ih =>
    intro base i
    have hlow : Memory.read (Memory.ofImage (base + 1) bs) base = Memory.unlisted :=
      Memory.read_below (Memory.ofImage_wfFrom bs (base + 1)) (Nat.lt_succ_self base)
    cases i with
    | zero =>
      simp only [Memory.ofImage, Nat.add_zero, List.getD_cons_zero]
      split
      · rename_i hb; rw [hlow, hb]
      · simp [Memory.read]
    | succ j =>
      have := ih (base + 1) j
      rw [Nat.add_right_comm, Nat.add_assoc] at this
      simp only [Memory.ofImage, List.getD_cons_succ]
      split
      · exact this
      · rw [Memory.read, if_neg (by omega)]; exact this

end Sys2Proof.Machine
end

