-- ==== Sys2Proof/Laws/State.lean ====
section
/-! SUPPORT. One lemma per field per update of the state, so that no proof unfolds a record update; and
how each update reads back through the register accessors. -/

namespace Sys2Proof.Machine

variable (s : State)

/-! ### writeReg -/

@[simp] theorem State.writeReg_cfg (r : RegIdx) (v : Byte) : (s.writeReg r v).cfg = s.cfg := rfl
@[simp] theorem State.writeReg_regs (r : RegIdx) (v : Byte) : (s.writeReg r v).regs = s.regs.set r v := rfl
@[simp] theorem State.writeReg_pc (r : RegIdx) (v : Byte) : (s.writeReg r v).pc = s.pc := rfl
@[simp] theorem State.writeReg_fl (r : RegIdx) (v : Byte) : (s.writeReg r v).fl = s.fl := rfl
@[simp] theorem State.writeReg_mem (r : RegIdx) (v : Byte) : (s.writeReg r v).mem = s.mem := rfl
@[simp] theorem State.writeReg_runState (r : RegIdx) (v : Byte) : (s.writeReg r v).runState = s.runState := rfl
@[simp] theorem State.writeReg_faultCause (r : RegIdx) (v : Byte) : (s.writeReg r v).faultCause = s.faultCause := rfl
@[simp] theorem State.writeReg_faultPc (r : RegIdx) (v : Byte) : (s.writeReg r v).faultPc = s.faultPc := rfl
@[simp] theorem State.writeReg_faultValue (r : RegIdx) (v : Byte) : (s.writeReg r v).faultValue = s.faultValue := rfl
@[simp] theorem State.writeReg_steps (r : RegIdx) (v : Byte) : (s.writeReg r v).steps = s.steps := rfl
@[simp] theorem State.writeReg_out (r : RegIdx) (v : Byte) : (s.writeReg r v).out = s.out := rfl
@[simp] theorem State.writeReg_draws (r : RegIdx) (v : Byte) : (s.writeReg r v).draws = s.draws := rfl
@[simp] theorem State.writeReg_flE (r : RegIdx) (v : Byte) : (s.writeReg r v).flE = s.flE := rfl

/-! ### writeSp -/

@[simp] theorem State.writeSp_cfg (v : Byte) : (s.writeSp v).cfg = s.cfg := rfl
@[simp] theorem State.writeSp_regs (v : Byte) : (s.writeSp v).regs = s.regs.set spIdx v := rfl
@[simp] theorem State.writeSp_pc (v : Byte) : (s.writeSp v).pc = s.pc := rfl
@[simp] theorem State.writeSp_fl (v : Byte) : (s.writeSp v).fl = s.fl := rfl
@[simp] theorem State.writeSp_mem (v : Byte) : (s.writeSp v).mem = s.mem := rfl
@[simp] theorem State.writeSp_runState (v : Byte) : (s.writeSp v).runState = s.runState := rfl
@[simp] theorem State.writeSp_faultCause (v : Byte) : (s.writeSp v).faultCause = s.faultCause := rfl
@[simp] theorem State.writeSp_faultPc (v : Byte) : (s.writeSp v).faultPc = s.faultPc := rfl
@[simp] theorem State.writeSp_faultValue (v : Byte) : (s.writeSp v).faultValue = s.faultValue := rfl
@[simp] theorem State.writeSp_steps (v : Byte) : (s.writeSp v).steps = s.steps := rfl
@[simp] theorem State.writeSp_out (v : Byte) : (s.writeSp v).out = s.out := rfl
@[simp] theorem State.writeSp_draws (v : Byte) : (s.writeSp v).draws = s.draws := rfl
@[simp] theorem State.writeSp_flE (v : Byte) : (s.writeSp v).flE = s.flE := rfl

/-! ### advance -/

@[simp] theorem State.advance_cfg (w : Nat) : (s.advance w).cfg = s.cfg := rfl
@[simp] theorem State.advance_regs (w : Nat) : (s.advance w).regs = s.regs := rfl
@[simp] theorem State.advance_pc (w : Nat) : (s.advance w).pc = s.pc + BitVec.ofNat 9 w := rfl
@[simp] theorem State.advance_fl (w : Nat) : (s.advance w).fl = s.fl := rfl
@[simp] theorem State.advance_mem (w : Nat) : (s.advance w).mem = s.mem := rfl
@[simp] theorem State.advance_runState (w : Nat) : (s.advance w).runState = s.runState := rfl
@[simp] theorem State.advance_faultCause (w : Nat) : (s.advance w).faultCause = s.faultCause := rfl
@[simp] theorem State.advance_faultPc (w : Nat) : (s.advance w).faultPc = s.faultPc := rfl
@[simp] theorem State.advance_faultValue (w : Nat) : (s.advance w).faultValue = s.faultValue := rfl
@[simp] theorem State.advance_steps (w : Nat) : (s.advance w).steps = s.steps := rfl
@[simp] theorem State.advance_out (w : Nat) : (s.advance w).out = s.out := rfl
@[simp] theorem State.advance_draws (w : Nat) : (s.advance w).draws = s.draws := rfl
@[simp] theorem State.advance_readReg (w : Nat) (q : RegIdx) : (s.advance w).readReg q = s.readReg q := rfl
@[simp] theorem State.advance_sp (w : Nat) : (s.advance w).sp = s.sp := rfl
@[simp] theorem State.advance_decSp (w : Nat) : (s.advance w).decSp = s.decSp := rfl
@[simp] theorem State.advance_incSp (w : Nat) : (s.advance w).incSp = s.incSp := rfl
@[simp] theorem State.advance_flE (w : Nat) : (s.advance w).flE = s.flE := rfl

/-! ### jumpTo -/

@[simp] theorem State.jumpTo_cfg (v : Byte) : (s.jumpTo v).cfg = s.cfg := rfl
@[simp] theorem State.jumpTo_regs (v : Byte) : (s.jumpTo v).regs = s.regs := rfl
@[simp] theorem State.jumpTo_pc (v : Byte) : (s.jumpTo v).pc = zext9 v := rfl
@[simp] theorem State.jumpTo_fl (v : Byte) : (s.jumpTo v).fl = s.fl := rfl
@[simp] theorem State.jumpTo_mem (v : Byte) : (s.jumpTo v).mem = s.mem := rfl
@[simp] theorem State.jumpTo_runState (v : Byte) : (s.jumpTo v).runState = s.runState := rfl
@[simp] theorem State.jumpTo_faultCause (v : Byte) : (s.jumpTo v).faultCause = s.faultCause := rfl
@[simp] theorem State.jumpTo_faultPc (v : Byte) : (s.jumpTo v).faultPc = s.faultPc := rfl
@[simp] theorem State.jumpTo_faultValue (v : Byte) : (s.jumpTo v).faultValue = s.faultValue := rfl
@[simp] theorem State.jumpTo_steps (v : Byte) : (s.jumpTo v).steps = s.steps := rfl
@[simp] theorem State.jumpTo_out (v : Byte) : (s.jumpTo v).out = s.out := rfl
@[simp] theorem State.jumpTo_draws (v : Byte) : (s.jumpTo v).draws = s.draws := rfl
@[simp] theorem State.jumpTo_readReg (v : Byte) (q : RegIdx) : (s.jumpTo v).readReg q = s.readReg q := rfl
@[simp] theorem State.jumpTo_sp (v : Byte) : (s.jumpTo v).sp = s.sp := rfl
@[simp] theorem State.jumpTo_decSp (v : Byte) : (s.jumpTo v).decSp = s.decSp := rfl
@[simp] theorem State.jumpTo_incSp (v : Byte) : (s.jumpTo v).incSp = s.incSp := rfl
@[simp] theorem State.jumpTo_flE (v : Byte) : (s.jumpTo v).flE = s.flE := rfl

/-! ### compare -/

@[simp] theorem State.compare_cfg (va vb : Byte) : (s.compare va vb).cfg = s.cfg := rfl
@[simp] theorem State.compare_regs (va vb : Byte) : (s.compare va vb).regs = s.regs := rfl
@[simp] theorem State.compare_pc (va vb : Byte) : (s.compare va vb).pc = s.pc := rfl
@[simp] theorem State.compare_fl (va vb : Byte) : (s.compare va vb).fl = cmpFlags s.cfg.cmpMode va vb s.fl (Config.legacyDraw s.draws) := rfl
@[simp] theorem State.compare_mem (va vb : Byte) : (s.compare va vb).mem = s.mem := rfl
@[simp] theorem State.compare_runState (va vb : Byte) : (s.compare va vb).runState = s.runState := rfl
@[simp] theorem State.compare_faultCause (va vb : Byte) : (s.compare va vb).faultCause = s.faultCause := rfl
@[simp] theorem State.compare_faultPc (va vb : Byte) : (s.compare va vb).faultPc = s.faultPc := rfl
@[simp] theorem State.compare_faultValue (va vb : Byte) : (s.compare va vb).faultValue = s.faultValue := rfl
@[simp] theorem State.compare_steps (va vb : Byte) : (s.compare va vb).steps = s.steps := rfl
@[simp] theorem State.compare_out (va vb : Byte) : (s.compare va vb).out = s.out := rfl
@[simp] theorem State.compare_draws (va vb : Byte) : (s.compare va vb).draws = if cmpDraws s.cfg.cmpMode va vb then s.draws + 1 else s.draws := rfl
@[simp] theorem State.compare_readReg (va vb : Byte) (q : RegIdx) : (s.compare va vb).readReg q = s.readReg q := rfl
@[simp] theorem State.compare_sp (va vb : Byte) : (s.compare va vb).sp = s.sp := rfl
@[simp] theorem State.compare_decSp (va vb : Byte) : (s.compare va vb).decSp = s.decSp := rfl
@[simp] theorem State.compare_incSp (va vb : Byte) : (s.compare va vb).incSp = s.incSp := rfl

/-! ### emit -/

@[simp] theorem State.emit_cfg (v : Byte) : (s.emit v).cfg = s.cfg := rfl
@[simp] theorem State.emit_regs (v : Byte) : (s.emit v).regs = s.regs := rfl
@[simp] theorem State.emit_pc (v : Byte) : (s.emit v).pc = s.pc := rfl
@[simp] theorem State.emit_fl (v : Byte) : (s.emit v).fl = s.fl := rfl
@[simp] theorem State.emit_mem (v : Byte) : (s.emit v).mem = s.mem := rfl
@[simp] theorem State.emit_runState (v : Byte) : (s.emit v).runState = s.runState := rfl
@[simp] theorem State.emit_faultCause (v : Byte) : (s.emit v).faultCause = s.faultCause := rfl
@[simp] theorem State.emit_faultPc (v : Byte) : (s.emit v).faultPc = s.faultPc := rfl
@[simp] theorem State.emit_faultValue (v : Byte) : (s.emit v).faultValue = s.faultValue := rfl
@[simp] theorem State.emit_steps (v : Byte) : (s.emit v).steps = s.steps := rfl
@[simp] theorem State.emit_out (v : Byte) : (s.emit v).out = s.out ++ [v] := rfl
@[simp] theorem State.emit_draws (v : Byte) : (s.emit v).draws = s.draws := rfl
@[simp] theorem State.emit_readReg (v : Byte) (q : RegIdx) : (s.emit v).readReg q = s.readReg q := rfl
@[simp] theorem State.emit_sp (v : Byte) : (s.emit v).sp = s.sp := rfl
@[simp] theorem State.emit_decSp (v : Byte) : (s.emit v).decSp = s.decSp := rfl
@[simp] theorem State.emit_incSp (v : Byte) : (s.emit v).incSp = s.incSp := rfl
@[simp] theorem State.emit_flE (v : Byte) : (s.emit v).flE = s.flE := rfl

/-! ### halt -/

@[simp] theorem State.halt_cfg : s.halt.cfg = s.cfg := rfl
@[simp] theorem State.halt_regs : s.halt.regs = s.regs := rfl
@[simp] theorem State.halt_pc : s.halt.pc = s.pc := rfl
@[simp] theorem State.halt_fl : s.halt.fl = s.fl := rfl
@[simp] theorem State.halt_mem : s.halt.mem = s.mem := rfl
@[simp] theorem State.halt_runState : s.halt.runState = .halted := rfl
@[simp] theorem State.halt_faultCause : s.halt.faultCause = s.faultCause := rfl
@[simp] theorem State.halt_faultPc : s.halt.faultPc = s.faultPc := rfl
@[simp] theorem State.halt_faultValue : s.halt.faultValue = s.faultValue := rfl
@[simp] theorem State.halt_steps : s.halt.steps = s.steps := rfl
@[simp] theorem State.halt_out : s.halt.out = s.out := rfl
@[simp] theorem State.halt_draws : s.halt.draws = s.draws := rfl
@[simp] theorem State.halt_readReg (q : RegIdx) : s.halt.readReg q = s.readReg q := rfl
@[simp] theorem State.halt_sp : s.halt.sp = s.sp := rfl
@[simp] theorem State.halt_decSp : s.halt.decSp = s.decSp := rfl
@[simp] theorem State.halt_incSp : s.halt.incSp = s.incSp := rfl
@[simp] theorem State.halt_flE : s.halt.flE = s.flE := rfl

/-! ### countStep -/

@[simp] theorem State.countStep_cfg : s.countStep.cfg = s.cfg := rfl
@[simp] theorem State.countStep_regs : s.countStep.regs = s.regs := rfl
@[simp] theorem State.countStep_pc : s.countStep.pc = s.pc := rfl
@[simp] theorem State.countStep_fl : s.countStep.fl = s.fl := rfl
@[simp] theorem State.countStep_mem : s.countStep.mem = s.mem := rfl
@[simp] theorem State.countStep_runState : s.countStep.runState = s.runState := rfl
@[simp] theorem State.countStep_faultCause : s.countStep.faultCause = s.faultCause := rfl
@[simp] theorem State.countStep_faultPc : s.countStep.faultPc = s.faultPc := rfl
@[simp] theorem State.countStep_faultValue : s.countStep.faultValue = s.faultValue := rfl
@[simp] theorem State.countStep_steps : s.countStep.steps = s.steps + 1 := rfl
@[simp] theorem State.countStep_out : s.countStep.out = s.out := rfl
@[simp] theorem State.countStep_draws : s.countStep.draws = s.draws := rfl
@[simp] theorem State.countStep_readReg (q : RegIdx) : s.countStep.readReg q = s.readReg q := rfl
@[simp] theorem State.countStep_sp : s.countStep.sp = s.sp := rfl
@[simp] theorem State.countStep_decSp : s.countStep.decSp = s.decSp := rfl
@[simp] theorem State.countStep_incSp : s.countStep.incSp = s.incSp := rfl
@[simp] theorem State.countStep_flE : s.countStep.flE = s.flE := rfl

/-! ### enterFault -/

@[simp] theorem State.enterFault_cfg (f : Raised) : (s.enterFault f).cfg = s.cfg := rfl
@[simp] theorem State.enterFault_regs (f : Raised) : (s.enterFault f).regs = s.regs := rfl
@[simp] theorem State.enterFault_pc (f : Raised) : (s.enterFault f).pc = s.pc := rfl
@[simp] theorem State.enterFault_fl (f : Raised) : (s.enterFault f).fl = s.fl := rfl
@[simp] theorem State.enterFault_mem (f : Raised) : (s.enterFault f).mem = s.mem := rfl
@[simp] theorem State.enterFault_runState (f : Raised) : (s.enterFault f).runState = .faulted := rfl
@[simp] theorem State.enterFault_faultCause (f : Raised) : (s.enterFault f).faultCause = f.cause := rfl
@[simp] theorem State.enterFault_faultPc (f : Raised) : (s.enterFault f).faultPc = s.pc := rfl
@[simp] theorem State.enterFault_faultValue (f : Raised) : (s.enterFault f).faultValue = f.value := rfl
@[simp] theorem State.enterFault_steps (f : Raised) : (s.enterFault f).steps = s.steps := rfl
@[simp] theorem State.enterFault_out (f : Raised) : (s.enterFault f).out = s.out := rfl
@[simp] theorem State.enterFault_draws (f : Raised) : (s.enterFault f).draws = s.draws := rfl
@[simp] theorem State.enterFault_readReg (f : Raised) (q : RegIdx) : (s.enterFault f).readReg q = s.readReg q := rfl
@[simp] theorem State.enterFault_sp (f : Raised) : (s.enterFault f).sp = s.sp := rfl
@[simp] theorem State.enterFault_decSp (f : Raised) : (s.enterFault f).decSp = s.decSp := rfl
@[simp] theorem State.enterFault_incSp (f : Raised) : (s.enterFault f).incSp = s.incSp := rfl
@[simp] theorem State.enterFault_flE (f : Raised) : (s.enterFault f).flE = s.flE := rfl

/-! ### setCell -/

@[simp] theorem State.setCell_cfg (a : Nat) (v : Byte) : (s.setCell a v).cfg = s.cfg := rfl
@[simp] theorem State.setCell_regs (a : Nat) (v : Byte) : (s.setCell a v).regs = s.regs := rfl
@[simp] theorem State.setCell_pc (a : Nat) (v : Byte) : (s.setCell a v).pc = s.pc := rfl
@[simp] theorem State.setCell_fl (a : Nat) (v : Byte) : (s.setCell a v).fl = s.fl := rfl
@[simp] theorem State.setCell_mem (a : Nat) (v : Byte) : (s.setCell a v).mem = s.mem.write a v := rfl
@[simp] theorem State.setCell_runState (a : Nat) (v : Byte) : (s.setCell a v).runState = s.runState := rfl
@[simp] theorem State.setCell_faultCause (a : Nat) (v : Byte) : (s.setCell a v).faultCause = s.faultCause := rfl
@[simp] theorem State.setCell_faultPc (a : Nat) (v : Byte) : (s.setCell a v).faultPc = s.faultPc := rfl
@[simp] theorem State.setCell_faultValue (a : Nat) (v : Byte) : (s.setCell a v).faultValue = s.faultValue := rfl
@[simp] theorem State.setCell_steps (a : Nat) (v : Byte) : (s.setCell a v).steps = s.steps := rfl
@[simp] theorem State.setCell_out (a : Nat) (v : Byte) : (s.setCell a v).out = s.out := rfl
@[simp] theorem State.setCell_draws (a : Nat) (v : Byte) : (s.setCell a v).draws = s.draws := rfl
@[simp] theorem State.setCell_readReg (a : Nat) (v : Byte) (q : RegIdx) : (s.setCell a v).readReg q = s.readReg q := rfl
@[simp] theorem State.setCell_sp (a : Nat) (v : Byte) : (s.setCell a v).sp = s.sp := rfl
@[simp] theorem State.setCell_decSp (a : Nat) (v : Byte) : (s.setCell a v).decSp = s.decSp := rfl
@[simp] theorem State.setCell_incSp (a : Nat) (v : Byte) : (s.setCell a v).incSp = s.incSp := rfl
@[simp] theorem State.setCell_flE (a : Nat) (v : Byte) : (s.setCell a v).flE = s.flE := rfl

/-! ### Reading registers after a register write -/

@[simp] theorem State.writeReg_readReg (r q : RegIdx) (v : Byte) :
    (s.writeReg r v).readReg q = if q = r then v else s.readReg q := by
  simp only [State.readReg, State.writeReg, Fin.getElem_fin, Vector.getElem_set, Fin.ext_iff, eq_comm]

@[simp] theorem State.writeSp_readReg (q : RegIdx) (v : Byte) :
    (s.writeSp v).readReg q = if q = spIdx then v else s.readReg q :=
  s.writeReg_readReg spIdx q v

@[simp] theorem State.writeSp_sp (v : Byte) : (s.writeSp v).sp = v := by
  simp [State.sp]

theorem State.sp_eq : s.sp = s.readReg spIdx := rfl

/-- States with the same registers and the same other fields are the same. -/
theorem State.regs_ext {s t : State} (h : ∀ q, t.readReg q = s.readReg q) : t.regs = s.regs := by
  refine Vector.ext fun i hi => ?_
  exact h ⟨i, hi⟩

end Sys2Proof.Machine
end

