-- ==== Sys2Proof/Laws/Ops.lean ====
section
/-! SUPPORT. One lemma per shared operation that says once everything it can do. -/

namespace Sys2Proof.Machine

/-! ### Registers named by operand bytes -/

/-- A byte below 8 names the register with its index. -/
theorem regOperand_ok {a : Byte} (h : a.toNat < 8) : regOperand a = .ok ⟨a.toNat, h⟩ := by
  simp [regOperand, h]

/-- A byte of 8 or more raises REG_RANGE with the byte as its value (30_encoding.md R83). -/
theorem regOperand_error {a : Byte} (h : ¬ a.toNat < 8) :
    regOperand a = .error ⟨.regRange, BitVec.ofNat 9 a.toNat⟩ := by
  simp [regOperand, h, raise]

theorem regOperand_cases (a : Byte) :
    (∃ h : a.toNat < 8, regOperand a = .ok ⟨a.toNat, h⟩) ∨
    (8 ≤ a.toNat ∧ regOperand a = .error ⟨.regRange, BitVec.ofNat 9 a.toNat⟩) := by
  by_cases h : a.toNat < 8
  · exact .inl ⟨h, regOperand_ok h⟩
  · exact .inr ⟨by omega, regOperand_error h⟩

/-! ### Memory with the range check -/

theorem State.memRead_ok {s : State} {a : Nat} (h : a < s.cfg.memSize) :
    s.memRead a = .ok (s.mem.read a) := by
  simp [State.memRead, h]

theorem State.memRead_error {s : State} {a : Nat} (h : ¬ a < s.cfg.memSize) :
    s.memRead a = .error ⟨.addrRange, BitVec.ofNat 9 a⟩ := by
  simp [State.memRead, h, raise]

theorem State.memWrite_ok {s : State} {a : Nat} (h : a < s.cfg.memSize) (v : Byte) :
    s.memWrite a v = .ok (s.setCell a v) := by
  simp [State.memWrite, h]

theorem State.memWrite_error {s : State} {a : Nat} (h : ¬ a < s.cfg.memSize) (v : Byte) :
    s.memWrite a v = .error ⟨.addrRange, BitVec.ofNat 9 a⟩ := by
  simp [State.memWrite, h, raise]

/-! ### Stack pointer arithmetic (42_stack.md R140) -/

theorem State.decSp_toNat {s : State} (h : s.cfg.wf) :
    s.decSp.toNat = (s.sp.toNat + s.cfg.memSize - 1) % s.cfg.memSize := by
  have hm : 0 < s.cfg.memSize := h.1
  have := Nat.mod_lt (s.sp.toNat + s.cfg.memSize - 1) hm
  have h2 := h.2.1
  simp only [State.decSp, BitVec.toNat_ofNat]
  omega

theorem State.incSp_toNat {s : State} (h : s.cfg.wf) :
    s.incSp.toNat = (s.sp.toNat + 1) % s.cfg.memSize := by
  have hm : 0 < s.cfg.memSize := h.1
  have := Nat.mod_lt (s.sp.toNat + 1) hm
  have h2 := h.2.1
  simp only [State.incSp, BitVec.toNat_ofNat]
  omega

/-- A decremented SP is always a valid address. -/
theorem State.decSp_lt {s : State} (h : s.cfg.wf) : s.decSp.toNat < s.cfg.memSize := by
  rw [State.decSp_toNat h]
  exact Nat.mod_lt _ h.1

theorem State.incSp_lt {s : State} (h : s.cfg.wf) : s.incSp.toNat < s.cfg.memSize := by
  rw [State.incSp_toNat h]
  exact Nat.mod_lt _ h.1

/-! ### How an instruction ends -/

@[simp] theorem conclude_ok (s t : State) : conclude s (.ok t) = .next t := rfl

@[simp] theorem conclude_error (s : State) (f : Raised) :
    conclude s (.error f) = .next (s.enterFault f) := rfl

@[simp] theorem counted_next (t : State) :
    counted (.next t) = .next (if t.runState = .faulted then t else t.countStep) := rfl

@[simp] theorem bind_ok {α β : Type} (a : α) (f : α → Except Raised β) :
    (Except.ok a >>= f) = f a := rfl

@[simp] theorem bind_error {α β : Type} (e : Raised) (f : α → Except Raised β) :
    (Except.error e >>= f) = .error e := rfl

@[simp] theorem pure_ok {α : Type} (a : α) : (pure a : Except Raised α) = .ok a := rfl

end Sys2Proof.Machine
end

