-- ==== Sys2Proof/Laws/Exec.lean ====
section
/-! SUPPORT. What every meaning can do: complete on register bytes below 8, or raise; and what every
completed instruction leaves alone. -/

namespace Sys2Proof.Machine

/-! ### Operand bytes that name a register -/

theorem regByte_toNat (r : RegIdx) : (regByte r).toNat = r.val := by
  simp only [regByte, BitVec.toNat_ofNat]
  omega

@[simp] theorem regOperand_regByte (r : RegIdx) : regOperand (regByte r) = .ok r := by
  have h : (regByte r).toNat < 8 := by rw [regByte_toNat]; exact r.isLt
  rw [regOperand_ok h]
  congr 1
  exact Fin.ext (regByte_toNat r)

/-- A byte below 8 is the byte of the register it names. -/
theorem regByte_of_lt {a : Byte} (h : a.toNat < 8) : regByte ⟨a.toNat, h⟩ = a := by
  apply BitVec.eq_of_toNat_eq
  rw [regByte_toNat]

/-- Every operand byte names a register or is 8 or more. -/
theorem regByte_cases (a : Byte) : (∃ r : RegIdx, a = regByte r) ∨ 8 ≤ a.toNat := by
  by_cases h : a.toNat < 8
  · exact .inl ⟨⟨a.toNat, h⟩, (regByte_of_lt h).symm⟩
  · exact .inr (by omega)

theorem regOperand_bad {a : Byte} (h : 8 ≤ a.toNat) :
    regOperand a = .error ⟨.regRange, BitVec.ofNat 9 a.toNat⟩ :=
  regOperand_error (by omega)

/-! ### Taking a fault -/

theorem State.enterFault_eq_afterFault (s : State) (c : FaultCause) (v : Nat) :
    s.enterFault ⟨c, BitVec.ofNat 9 v⟩ = s.afterFault c v := rfl

/-! ### The ALU -/

/-- What the ALU leaves alone (41_alu.md R113): everything but x[A], or FL for CMP. -/
structure AluFrame (s t : State) : Prop where
  cfg : t.cfg = s.cfg
  pc : t.pc = s.pc
  mem : t.mem = s.mem
  runState : t.runState = s.runState
  faultCause : t.faultCause = s.faultCause
  faultPc : t.faultPc = s.faultPc
  faultValue : t.faultValue = s.faultValue
  steps : t.steps = s.steps
  out : t.out = s.out

theorem alu_frame (op : AluOp) (ra rb : RegIdx) (s : State) : AluFrame s (alu op ra rb s) := by
  cases op <;> exact ⟨rfl, rfl, rfl, rfl, rfl, rfl, rfl, rfl, rfl⟩

theorem alu_readReg_other (op : AluOp) (ra rb : RegIdx) (s : State) {q : RegIdx} (hq : q ≠ ra) :
    (alu op ra rb s).readReg q = s.readReg q := by
  cases op <;> simp [alu, hq]

theorem alu_fl (op : AluOp) (ra rb : RegIdx) (s : State) (h : op ≠ .cmp) :
    (alu op ra rb s).fl = s.fl ∧ (alu op ra rb s).draws = s.draws := by
  cases op <;> first | exact ⟨rfl, rfl⟩ | exact absurd rfl h

theorem aluRR_regByte (op : AluOp) (ra rb : RegIdx) (s : State) :
    aluRR op (regByte ra) (regByte rb) s = .next ((alu op ra rb s).advance 3) := by
  simp [aluRR]

/-- Everything `aluRR` can do. -/
theorem aluRR_cases (op : AluOp) (a b : Byte) (s : State) :
    (∃ ra rb : RegIdx, aluRR op a b s = .next ((alu op ra rb s).advance 3)) ∨
    (∃ v : Byte, v ∈ [a, b] ∧ 8 ≤ v.toNat ∧
      aluRR op a b s = .next (s.enterFault ⟨.regRange, BitVec.ofNat 9 v.toNat⟩)) := by
  rcases regByte_cases a with ⟨ra, rfl⟩ | ha
  · rcases regByte_cases b with ⟨rb, rfl⟩ | hb
    · exact .inl ⟨ra, rb, aluRR_regByte op ra rb s⟩
    · exact .inr ⟨b, by simp, hb, by simp [aluRR, regOperand_bad hb]⟩
  · exact .inr ⟨a, by simp, ha, by simp [aluRR, regOperand_bad ha]⟩

/-! ### Flags -/

/-- What a compare can leave in FL (41_alu.md R115). -/
theorem cmpFlags_cases (mode : CmpMode) (va vb old : Byte) (keep : Bool) :
    cmpFlags mode va vb old keep = flagE ∨ cmpFlags mode va vb old keep = flagG ∨
    cmpFlags mode va vb old keep = flagL ∨ cmpFlags mode va vb old keep = old ∨
    cmpFlags mode va vb old keep = 0 := by
  cases mode <;> simp only [cmpFlags] <;> (repeat' split) <;> simp

/-! ### The one-register meanings on a register that exists -/

section
variable (r : RegIdx) (s : State)

theorem execLdi_regByte (v : Byte) :
    execLdi (regByte r) v s = .next ((s.writeReg r v).advance 3) := by
  simp [execLdi]

theorem execPrn_regByte : execPrn (regByte r) s = .next ((s.emit (s.readReg r)).advance 2) := by
  simp [execPrn]

theorem execNot_regByte : execNot (regByte r) s = .next ((alu .not r r s).advance 2) := by
  simp [execNot]

theorem execPush_regByte (h : s.decSp.toNat < s.cfg.memSize) :
    execPush (regByte r) s =
      .next (((s.writeSp s.decSp).setCell s.decSp.toNat ((s.writeSp s.decSp).readReg r)).advance 2) := by
  simp [execPush, State.memWrite, h]

theorem execPush_addrRange (h : ¬ s.decSp.toNat < s.cfg.memSize) :
    execPush (regByte r) s = .next (s.enterFault ⟨.addrRange, BitVec.ofNat 9 s.decSp.toNat⟩) := by
  simp [execPush, State.memWrite, h, raise]

theorem execPop_regByte (h : s.sp.toNat < s.cfg.memSize) :
    execPop (regByte r) s =
      .next (((s.writeReg r (s.mem.read s.sp.toNat)).writeSp
        (s.writeReg r (s.mem.read s.sp.toNat)).incSp).advance 2) := by
  simp [execPop, State.memRead_ok h]

theorem execPop_addrRange (h : ¬ s.sp.toNat < s.cfg.memSize) :
    execPop (regByte r) s = .next (s.enterFault ⟨.addrRange, BitVec.ofNat 9 s.sp.toNat⟩) := by
  simp [execPop, State.memRead_error h]

theorem execCall_regByte (hp : s.pc.toNat + 2 ≤ 255) (h : s.decSp.toNat < s.cfg.memSize) :
    execCall (regByte r) s =
      .next (((s.writeSp s.decSp).setCell s.decSp.toNat (trunc8 (s.pc.toNat + 2))).jumpTo
        ((s.writeSp s.decSp).readReg r)) := by
  have hp' : ¬ s.pc.toNat + 2 > 255 := by omega
  simp only [execCall, regOperand_regByte, bind_ok, hp', if_false, State.writeSp_sp, State.memWrite,
    State.writeSp_cfg, h, if_true, pure_ok, conclude_ok, State.setCell_readReg]

theorem execCall_retAddrRange (hp : 255 < s.pc.toNat + 2) :
    execCall (regByte r) s =
      .next (s.enterFault ⟨.retAddrRange, BitVec.ofNat 9 (s.pc.toNat + 2)⟩) := by
  have hp' : s.pc.toNat + 2 > 255 := hp
  simp only [execCall, regOperand_regByte, bind_ok, hp', if_true, raise, conclude_error]

theorem execCall_addrRange (hp : s.pc.toNat + 2 ≤ 255) (h : ¬ s.decSp.toNat < s.cfg.memSize) :
    execCall (regByte r) s = .next (s.enterFault ⟨.addrRange, BitVec.ofNat 9 s.decSp.toNat⟩) := by
  have hp' : ¬ s.pc.toNat + 2 > 255 := by omega
  simp only [execCall, regOperand_regByte, bind_ok, hp', if_false, State.writeSp_sp, State.memWrite,
    State.writeSp_cfg, h, raise, bind_error, conclude_error]

theorem execRet_ok (h : s.sp.toNat < s.cfg.memSize) :
    execRet s = .next ((s.writeSp s.incSp).jumpTo (s.mem.read s.sp.toNat)) := by
  simp [execRet, State.memRead_ok h]

theorem execRet_addrRange (h : ¬ s.sp.toNat < s.cfg.memSize) :
    execRet s = .next (s.enterFault ⟨.addrRange, BitVec.ofNat 9 s.sp.toNat⟩) := by
  simp [execRet, State.memRead_error h]

theorem execJmp_regByte : execJmp (regByte r) s = .next (s.jumpTo (s.readReg r)) := by
  simp [execJmp]

theorem execJeq_regByte :
    execJeq (regByte r) s = .next (if s.flE then s.jumpTo (s.readReg r) else s.advance 2) := by
  simp [execJeq]

theorem execJne_regByte :
    execJne (regByte r) s = .next (if s.flE then s.advance 2 else s.jumpTo (s.readReg r)) := by
  simp [execJne]

end

/-! ### Every instruction -/

theorem regByte_lt (r : RegIdx) : (regByte r).toNat < 8 := by
  rw [regByte_toNat]; exact r.isLt

theorem regIdx_of_regByte (r : RegIdx) (h : (regByte r).toNat < 8) :
    (⟨(regByte r).toNat, h⟩ : RegIdx) = r :=
  Fin.ext (regByte_toNat r)

section
variable (r : RegIdx) (s : State)

theorem explicitTarget_jmp : explicitTarget (.jmp (regByte r)) s = some (s.readReg r) := by
  simp [explicitTarget, regByte_lt, regIdx_of_regByte]

theorem explicitTarget_jeq :
    explicitTarget (.jeq (regByte r)) s = if s.flE then some (s.readReg r) else none := by
  simp [explicitTarget, regByte_lt, regIdx_of_regByte]

theorem explicitTarget_jne :
    explicitTarget (.jne (regByte r)) s = if s.flE then none else some (s.readReg r) := by
  simp [explicitTarget, regByte_lt, regIdx_of_regByte]

theorem explicitTarget_call :
    explicitTarget (.call (regByte r)) s = some ((s.writeSp s.decSp).readReg r) := by
  have : ((regByte r).toNat = 7) ↔ r = spIdx := by
    rw [regByte_toNat, Fin.ext_iff]; rfl
  simp [explicitTarget, regByte_lt, regIdx_of_regByte, this]

end

/-- What one completed instruction did, field by field. -/
structure Completed (i : Instr) (s t : State) : Prop where
  cfg : t.cfg = s.cfg
  runState : t.runState = if i = .hlt then .halted else s.runState
  faultCause : t.faultCause = s.faultCause
  faultPc : t.faultPc = s.faultPc
  faultValue : t.faultValue = s.faultValue
  steps : t.steps = s.steps
  fl : (∃ a b, i = .cmp a b) ∧
      (∃ va vb keep, t.fl = cmpFlags s.cfg.cmpMode va vb s.fl keep) ∨ t.fl = s.fl
  out : (∃ r : RegIdx, i = .prn (regByte r) ∧ t.out = s.out ++ [s.readReg r]) ∨ t.out = s.out
  mem : (∃ a v, (i = .push a ∨ i = .call a) ∧ s.decSp.toNat < s.cfg.memSize ∧
      t.mem = s.mem.write s.decSp.toNat v) ∨ t.mem = s.mem
  pc : (∃ v, explicitTarget i s = some v ∧ t.pc = zext9 v) ∨
      (explicitTarget i s = none ∧ t.pc = s.pc + BitVec.ofNat 9 i.width)

/-- What one instruction raises of its own, and when (60_exceptions.md R173, R174, R176). -/
def RaisedBy (i : Instr) (s : State) (f : Raised) : Prop :=
  (f.cause = .regRange ∧
    ∃ a, a ∈ i.regBytes ∧ 8 ≤ a.toNat ∧ f.value = BitVec.ofNat 9 a.toNat) ∨
  (f.cause = .addrRange ∧
    ((¬ s.sp.toNat < s.cfg.memSize ∧ f.value = BitVec.ofNat 9 s.sp.toNat) ∨
      ¬ s.decSp.toNat < s.cfg.memSize)) ∨
  (f.cause = .retAddrRange ∧ 255 < s.pc.toNat + 2 ∧ (∃ a, i = .call a) ∧
    f.value = BitVec.ofNat 9 (s.pc.toNat + 2))

theorem completed_alu (op : AluOp) (i : Instr) (ra rb : RegIdx) (s : State) (w : Nat)
    (hi : i ≠ .hlt) (hx : explicitTarget i s = none) (hw : i.width = w)
    (hc : op = .cmp → ∃ a b, i = .cmp a b) :
    Completed i s ((alu op ra rb s).advance w) := by
  obtain ⟨h1, h2, h3, h4, h5, h6, h7, h8, h9⟩ := alu_frame op ra rb s
  refine ⟨h1, ?_, h5, h6, h7, h8, ?_, .inr h9, .inr h3, .inr ⟨hx, ?_⟩⟩
  · simpa [hi] using h4
  · by_cases hop : op = .cmp
    · subst hop
      exact .inl ⟨hc rfl, s.readReg ra, s.readReg rb, Config.legacyDraw s.draws, rfl⟩
    · exact .inr (alu_fl op ra rb s hop).1
  · simp [h2, hw]

/-- The whole of `exec`, once: it completes as `Completed` says, or it takes a fault from the state it
started in. -/
theorem exec_cases (i : Instr) (s : State) :
    (∃ t, exec i s = .next t ∧ Completed i s t) ∨
    (∃ f, exec i s = .next (s.enterFault f) ∧ RaisedBy i s f) := by
  have rr : ∀ (op : AluOp) (j : Instr) (a b : Byte), j ≠ .hlt → explicitTarget j s = none →
      j.width = 3 → (op = .cmp → ∃ x y, j = .cmp x y) → j.regBytes = [a, b] →
      (∃ t, aluRR op a b s = .next t ∧ Completed j s t) ∨
      (∃ f, aluRR op a b s = .next (s.enterFault f) ∧ RaisedBy j s f) := by
    intro op j a b h1 h2 h3 h4 h5
    rcases aluRR_cases op a b s with ⟨ra, rb, h⟩ | ⟨v, hv, h8, h⟩
    · exact .inl ⟨_, h, completed_alu op j ra rb s 3 h1 h2 h3 h4⟩
    · exact .inr ⟨_, h, .inl ⟨rfl, v, h5 ▸ hv, h8, rfl⟩⟩
  have bad : ∀ a : Byte, a ∈ i.regBytes → 8 ≤ a.toNat →
      exec i s = .next (s.enterFault ⟨.regRange, BitVec.ofNat 9 a.toNat⟩) →
      (∃ t, exec i s = .next t ∧ Completed i s t) ∨
      (∃ f, exec i s = .next (s.enterFault f) ∧ RaisedBy i s f) :=
    fun a ha h8 h => .inr ⟨_, h, .inl ⟨rfl, a, ha, h8, rfl⟩⟩
  cases i with
  | hlt =>
    exact .inl ⟨_, rfl, rfl, rfl, rfl, rfl, rfl, rfl, .inr rfl, .inr rfl, .inr rfl, .inr ⟨rfl, rfl⟩⟩
  | ldi a v =>
    rcases regByte_cases a with ⟨r, rfl⟩ | ha
    · exact .inl ⟨_, execLdi_regByte r s v, rfl, rfl, rfl, rfl, rfl, rfl, .inr rfl, .inr rfl, .inr rfl,
        .inr ⟨rfl, rfl⟩⟩
    · exact bad a (by simp [Instr.regBytes]) ha (by simp [exec, execLdi, regOperand_bad ha])
  | prn a =>
    rcases regByte_cases a with ⟨r, rfl⟩ | ha
    · exact .inl ⟨_, execPrn_regByte r s, rfl, rfl, rfl, rfl, rfl, rfl, .inr rfl, .inl ⟨r, rfl, rfl⟩,
        .inr rfl, .inr ⟨rfl, rfl⟩⟩
    · exact bad a (by simp [Instr.regBytes]) ha (by simp [exec, execPrn, regOperand_bad ha])
  | add a b => exact rr .add (.add a b) a b (by simp) rfl rfl (by simp) rfl
  | mul a b => exact rr .mul (.mul a b) a b (by simp) rfl rfl (by simp) rfl
  | cmp a b => exact rr .cmp (.cmp a b) a b (by simp) rfl rfl (fun _ => ⟨a, b, rfl⟩) rfl
  | and a b => exact rr .and (.and a b) a b (by simp) rfl rfl (by simp) rfl
  | or a b => exact rr .or (.or a b) a b (by simp) rfl rfl (by simp) rfl
  | xor a b => exact rr .xor (.xor a b) a b (by simp) rfl rfl (by simp) rfl
  | not a =>
    rcases regByte_cases a with ⟨r, rfl⟩ | ha
    · exact .inl ⟨_, execNot_regByte r s, completed_alu .not _ r r s 2 (by simp) rfl rfl (by simp)⟩
    · exact bad a (by simp [Instr.regBytes]) ha (by simp [exec, execNot, regOperand_bad ha])
  | shl a b => exact rr .shl (.shl a b) a b (by simp) rfl rfl (by simp) rfl
  | shr a b => exact rr .shr (.shr a b) a b (by simp) rfl rfl (by simp) rfl
  | push a =>
    rcases regByte_cases a with ⟨r, rfl⟩ | ha
    · by_cases hm : s.decSp.toNat < s.cfg.memSize
      · exact .inl ⟨_, execPush_regByte r s hm, rfl, rfl, rfl, rfl, rfl, rfl, .inr rfl, .inr rfl,
          .inl ⟨_, _, .inl rfl, hm, rfl⟩, .inr ⟨rfl, rfl⟩⟩
      · exact .inr ⟨_, execPush_addrRange r s hm, .inr (.inl ⟨rfl, .inr hm⟩)⟩
    · exact bad a (by simp [Instr.regBytes]) ha (by simp [exec, execPush, regOperand_bad ha])
  | pop a =>
    rcases regByte_cases a with ⟨r, rfl⟩ | ha
    · by_cases hm : s.sp.toNat < s.cfg.memSize
      · exact .inl ⟨_, execPop_regByte r s hm, rfl, rfl, rfl, rfl, rfl, rfl, .inr rfl, .inr rfl,
          .inr rfl, .inr ⟨rfl, rfl⟩⟩
      · exact .inr ⟨_, execPop_addrRange r s hm, .inr (.inl ⟨rfl, .inl ⟨hm, rfl⟩⟩)⟩
    · exact bad a (by simp [Instr.regBytes]) ha (by simp [exec, execPop, regOperand_bad ha])
  | call a =>
    rcases regByte_cases a with ⟨r, rfl⟩ | ha
    · by_cases hp : s.pc.toNat + 2 ≤ 255
      · by_cases hm : s.decSp.toNat < s.cfg.memSize
        · exact .inl ⟨_, execCall_regByte r s hp hm, rfl, rfl, rfl, rfl, rfl, rfl, .inr rfl, .inr rfl,
            .inl ⟨_, _, .inr rfl, hm, rfl⟩, .inl ⟨_, explicitTarget_call r s, rfl⟩⟩
        · exact .inr ⟨_, execCall_addrRange r s hp hm, .inr (.inl ⟨rfl, .inr hm⟩)⟩
      · exact .inr ⟨_, execCall_retAddrRange r s (by omega), .inr (.inr ⟨rfl, by omega, ⟨_, rfl⟩, rfl⟩)⟩
    · exact bad a (by simp [Instr.regBytes]) ha (by simp [exec, execCall, regOperand_bad ha])
  | ret =>
    by_cases hm : s.sp.toNat < s.cfg.memSize
    · exact .inl ⟨_, execRet_ok s hm, rfl, rfl, rfl, rfl, rfl, rfl, .inr rfl, .inr rfl, .inr rfl,
        .inl ⟨_, rfl, rfl⟩⟩
    · exact .inr ⟨_, execRet_addrRange s hm, .inr (.inl ⟨rfl, .inl ⟨hm, rfl⟩⟩)⟩
  | jmp a =>
    rcases regByte_cases a with ⟨r, rfl⟩ | ha
    · exact .inl ⟨_, execJmp_regByte r s, rfl, rfl, rfl, rfl, rfl, rfl, .inr rfl, .inr rfl, .inr rfl,
        .inl ⟨_, explicitTarget_jmp r s, rfl⟩⟩
    · exact bad a (by simp [Instr.regBytes]) ha (by simp [exec, execJmp, regOperand_bad ha])
  | jeq a =>
    rcases regByte_cases a with ⟨r, rfl⟩ | ha
    · have h := execJeq_regByte r s
      have ht := explicitTarget_jeq r s
      cases he : s.flE <;> rw [he] at h ht
      · exact .inl ⟨_, h, rfl, rfl, rfl, rfl, rfl, rfl, .inr rfl, .inr rfl, .inr rfl, .inr ⟨ht, rfl⟩⟩
      · exact .inl ⟨_, h, rfl, rfl, rfl, rfl, rfl, rfl, .inr rfl, .inr rfl, .inr rfl,
          .inl ⟨_, ht, rfl⟩⟩
    · exact bad a (by simp [Instr.regBytes]) ha (by simp [exec, execJeq, regOperand_bad ha])
  | jne a =>
    rcases regByte_cases a with ⟨r, rfl⟩ | ha
    · have h := execJne_regByte r s
      have ht := explicitTarget_jne r s
      cases he : s.flE <;> rw [he] at h ht
      · exact .inl ⟨_, h, rfl, rfl, rfl, rfl, rfl, rfl, .inr rfl, .inr rfl, .inr rfl,
          .inl ⟨_, ht, rfl⟩⟩
      · exact .inl ⟨_, h, rfl, rfl, rfl, rfl, rfl, rfl, .inr rfl, .inr rfl, .inr rfl, .inr ⟨ht, rfl⟩⟩
    · exact bad a (by simp [Instr.regBytes]) ha (by simp [exec, execJne, regOperand_bad ha])

end Sys2Proof.Machine
end

