-- ==== Sys2Proof/Laws/PerInstr.lean ====
section
/-! SUPPORT. The per-instruction family Layout (LAWS.json): the encoding of an instruction is its opcode
byte followed by as many operand bytes as its format has, and those that are register indexes come
first (30_encoding.md R70, R71, R83). -/

namespace Sys2Proof.Laws.Layout

/-- What the family says of one instruction. -/
def Statement (i : Instr) : Prop :=
  (∀ m : OpcodeMap, encode m i = m.byteOf i.mnemonic :: i.operandBytes) ∧
  i.operandBytes.length = i.mnemonic.format.operandCount ∧
  i.regBytes <+: i.operandBytes

theorem hlt : Statement .hlt := ⟨fun _ => rfl, rfl, ⟨[], rfl⟩⟩
theorem ldi (a imm : Byte) : Statement (.ldi a imm) := ⟨fun _ => rfl, rfl, ⟨[imm], rfl⟩⟩
theorem prn (a : Byte) : Statement (.prn a) := ⟨fun _ => rfl, rfl, ⟨[], rfl⟩⟩
theorem add (a b : Byte) : Statement (.add a b) := ⟨fun _ => rfl, rfl, ⟨[], rfl⟩⟩
theorem mul (a b : Byte) : Statement (.mul a b) := ⟨fun _ => rfl, rfl, ⟨[], rfl⟩⟩
theorem cmp (a b : Byte) : Statement (.cmp a b) := ⟨fun _ => rfl, rfl, ⟨[], rfl⟩⟩
theorem and (a b : Byte) : Statement (.and a b) := ⟨fun _ => rfl, rfl, ⟨[], rfl⟩⟩
theorem or (a b : Byte) : Statement (.or a b) := ⟨fun _ => rfl, rfl, ⟨[], rfl⟩⟩
theorem xor (a b : Byte) : Statement (.xor a b) := ⟨fun _ => rfl, rfl, ⟨[], rfl⟩⟩
theorem not (a : Byte) : Statement (.not a) := ⟨fun _ => rfl, rfl, ⟨[], rfl⟩⟩
theorem shl (a b : Byte) : Statement (.shl a b) := ⟨fun _ => rfl, rfl, ⟨[], rfl⟩⟩
theorem shr (a b : Byte) : Statement (.shr a b) := ⟨fun _ => rfl, rfl, ⟨[], rfl⟩⟩
theorem push (a : Byte) : Statement (.push a) := ⟨fun _ => rfl, rfl, ⟨[], rfl⟩⟩
theorem pop (a : Byte) : Statement (.pop a) := ⟨fun _ => rfl, rfl, ⟨[], rfl⟩⟩
theorem call (a : Byte) : Statement (.call a) := ⟨fun _ => rfl, rfl, ⟨[], rfl⟩⟩
theorem ret : Statement .ret := ⟨fun _ => rfl, rfl, ⟨[], rfl⟩⟩
theorem jmp (a : Byte) : Statement (.jmp a) := ⟨fun _ => rfl, rfl, ⟨[], rfl⟩⟩
theorem jeq (a : Byte) : Statement (.jeq a) := ⟨fun _ => rfl, rfl, ⟨[], rfl⟩⟩
theorem jne (a : Byte) : Statement (.jne a) := ⟨fun _ => rfl, rfl, ⟨[], rfl⟩⟩

end Sys2Proof.Laws.Layout
end

