-- ==== Sys2Proof/Laws/Step.lean ====
section
/-! SUPPORT. What a fetch, a step and a run can do, once. -/

namespace Sys2Proof.Machine

/-! ### Fetch -/

theorem State.bytesFrom_eq {s : State} {n a : Nat} (h : a < s.cfg.memSize) :
    s.bytesFrom (n + 1) a = s.mem.read a :: s.bytesFrom n (a + 1) := by
  simp [State.bytesFrom, h]

theorem State.bytesFrom_nil {s : State} {n a : Nat} (h : ¬ a < s.cfg.memSize) :
    s.bytesFrom n a = [] := by
  cases n <;> simp [State.bytesFrom, h]

/-- A fetch of a byte that no instruction has. -/
theorem State.fetchInstr_unknown {s : State} (h : s.pc.toNat < s.cfg.memSize)
    (hl : s.cfg.opcodeMap.lookup (s.mem.read s.pc.toNat) = none) :
    s.fetchInstr = raise .unknownOpcode (s.mem.read s.pc.toNat).toNat := by
  simp only [State.fetchInstr, State.memRead_ok h, bind_ok, hl]

/-- A fetch whose whole width exists; the operand bytes the format does not have do not matter. -/
theorem State.fetchInstr_of_lookup {s : State} {k : Mnemonic}
    (hl : s.cfg.opcodeMap.lookup (s.mem.read s.pc.toNat) = some k)
    (hk : s.pc.toNat + k.format.operandCount < s.cfg.memSize) :
    s.fetchInstr = .ok (k.build (s.mem.read (s.pc.toNat + 1)) (s.mem.read (s.pc.toNat + 2))) := by
  have h0 : s.pc.toNat < s.cfg.memSize := by omega
  have h1 : 1 ≤ k.format.operandCount → s.pc.toNat + 1 < s.cfg.memSize := by omega
  have h2 : 2 ≤ k.format.operandCount → s.pc.toNat + 1 + 1 < s.cfg.memSize := by omega
  simp only [State.fetchInstr, State.memRead_ok h0, bind_ok, hl]
  cases k <;> simp only [State.fetchOperands, Mnemonic.format, Format.operandCount] at h1 h2 ⊢ <;>
    simp_all [State.memRead_ok, Mnemonic.build]

/-- What a fetch can raise (60_exceptions.md R177 items 1 to 3). -/
structure FetchRaises (s : State) (f : Raised) : Prop where
  cause : f.cause = .unknownOpcode ∨ f.cause = .addrRange
  value : f.cause = .addrRange → ∃ k, k ≤ 2 ∧ s.cfg.memSize ≤ s.pc.toNat + k ∧
    (1 ≤ k → s.pc.toNat + k - 1 < s.cfg.memSize) ∧ f.value = BitVec.ofNat 9 (s.pc.toNat + k)

/-- The fetched instruction has its whole width in memory. -/
theorem State.fetchInstr_cases (s : State) :
    (∃ i, s.fetchInstr = .ok i ∧ s.pc.toNat + i.width ≤ s.cfg.memSize) ∨
    (∃ f, s.fetchInstr = .error f ∧ FetchRaises s f) := by
  by_cases h0 : s.pc.toNat < s.cfg.memSize
  · cases hl : s.cfg.opcodeMap.lookup (s.mem.read s.pc.toNat) with
    | none =>
      refine .inr ⟨_, by simp only [State.fetchInstr, State.memRead_ok h0, bind_ok, hl, raise]; rfl, .inl rfl, ?_⟩
      simp
    | some k =>
      have hw : ∀ a b, (k.build a b).width = 1 + k.format.operandCount := by
        intro a b; rw [Instr.width, Mnemonic.build_mnemonic]; rfl
      have hf : s.fetchInstr = (s.fetchOperands k (s.pc.toNat + 1) >>= fun ab =>
          pure (k.build ab.1 ab.2)) := by
        simp only [State.fetchInstr, State.memRead_ok h0, bind_ok, hl]
      by_cases h1 : s.pc.toNat + 1 < s.cfg.memSize
      · by_cases h2 : s.pc.toNat + 2 < s.cfg.memSize
        · refine .inl ?_
          cases hc : k.format <;> refine ⟨_, by
            simp only [hf, State.fetchOperands, hc, Format.operandCount, State.memRead_ok h1,
              State.memRead_ok h2, bind_ok, pure_ok]; rfl, ?_⟩ <;>
            rw [hw, hc] <;> simp only [Format.operandCount] <;> omega
        · have hr : ∀ x : Byte, (k.format.operandCount = 2) →
              s.fetchInstr = .error ⟨.addrRange, BitVec.ofNat 9 (s.pc.toNat + 2)⟩ := by
            intro _ hc
            simp only [hf, State.fetchOperands, hc, State.memRead_ok h1, State.memRead_error h2,
              bind_ok, bind_error]
          cases hc : k.format
          · refine .inl ⟨_, by simp only [hf, State.fetchOperands, hc, Format.operandCount, pure_ok, bind_ok]; rfl, ?_⟩
            rw [hw, hc]; simp only [Format.operandCount]; omega
          · refine .inl ⟨_, by simp only [hf, State.fetchOperands, hc, Format.operandCount,
              State.memRead_ok h1, pure_ok, bind_ok]; rfl, ?_⟩
            rw [hw, hc]; simp only [Format.operandCount]; omega
          all_goals
            exact .inr ⟨_, hr 0 (by rw [hc]; rfl), .inr rfl, fun _ => ⟨2, by omega, by omega, by omega, rfl⟩⟩
      · cases hc : k.format
        · refine .inl ⟨_, by simp only [hf, State.fetchOperands, hc, Format.operandCount, pure_ok, bind_ok]; rfl, ?_⟩
          rw [hw, hc]; simp only [Format.operandCount]; omega
        all_goals
          refine .inr ⟨_, by simp only [hf, State.fetchOperands, hc, Format.operandCount,
            State.memRead_error h1, bind_error]; rfl, .inr rfl, fun _ => ⟨1, by omega, by omega, by omega, rfl⟩⟩
  · refine .inr ⟨_, by simp only [State.fetchInstr, State.memRead_error h0, bind_error]; rfl, .inr rfl, ?_⟩
    exact fun _ => ⟨0, by omega, by omega, by omega, rfl⟩

/-! ### One step -/

theorem step_of_ended {s : State} (h : s.ended) : step s = .next s := by
  unfold step
  cases hr : s.runState
  · exact absurd hr h
  · rfl
  · rfl

theorem step_of_running {s : State} (h : s.runState = .running) :
    step s = match s.fetchInstr with
      | .error f => .next (s.enterFault f)
      | .ok i => counted (exec i s) := by
  simp only [step, h] <;> rfl

/-- Everything a step of a RUNNING core can do. -/
theorem step_cases {s : State} (h : s.runState = .running) :
    (∃ i t, s.fetchInstr = .ok i ∧ s.pc.toNat + i.width ≤ s.cfg.memSize ∧ exec i s = .next t ∧
      Completed i s t ∧ t.runState ≠ .faulted ∧ step s = .next t.countStep) ∨
    (∃ i f, s.fetchInstr = .ok i ∧ exec i s = .next (s.enterFault f) ∧ RaisedBy i s f ∧
      step s = .next (s.enterFault f)) ∨
    (∃ f, s.fetchInstr = .error f ∧ FetchRaises s f ∧ step s = .next (s.enterFault f)) := by
  rw [step_of_running h]
  rcases s.fetchInstr_cases with ⟨i, hi, hw⟩ | ⟨f, hf, hr⟩
  · rcases exec_cases i s with ⟨t, ht, hc⟩ | ⟨f, hf, hr⟩
    · have hne : t.runState ≠ .faulted := by
        rw [hc.runState, h]; split <;> simp
      exact .inl ⟨i, t, hi, hw, ht, hc, hne, by simp [hi, ht, hne]⟩
    · exact .inr (.inl ⟨i, f, hi, hf, hr, by simp [hi, hf]⟩)
  · exact .inr (.inr ⟨f, hf, hr, by simp [hf]⟩)

/-! ### Runs -/

theorem stepsTo_zero (s t : State) : StepsTo 0 s t ↔ t = s := by
  simp only [StepsTo, Host.Core.run]
  exact ⟨fun h => (Host.Outcome.next.inj h).symm, fun h => by rw [h]⟩

/-- The first step of a longer run. -/
theorem stepsTo_succ {k : Nat} {s u : State} (h : step s = .next u) (t : State) :
    StepsTo (k + 1) s t ↔ StepsTo k u t := by
  have : Sys2Proof.core.step s = .next u := h
  simp only [StepsTo, Host.Core.run, this]

end Sys2Proof.Machine
end

