-- ==== Sys2Proof/Laws/Transactions.lean ====
section
/-! SUPPORT. What a Reset can answer, and the state it gives. -/

namespace Sys2Proof.Machine

section
variable (cfg : Config) (image : Memory)

@[simp] theorem State.initial_cfg : (State.initial cfg image).cfg = cfg := rfl
@[simp] theorem State.initial_pc : (State.initial cfg image).pc = 0 := rfl
@[simp] theorem State.initial_fl : (State.initial cfg image).fl = 0 := rfl
@[simp] theorem State.initial_mem : (State.initial cfg image).mem = image := rfl
@[simp] theorem State.initial_runState : (State.initial cfg image).runState = .running := rfl
@[simp] theorem State.initial_faultCause : (State.initial cfg image).faultCause = .none := rfl
@[simp] theorem State.initial_faultPc : (State.initial cfg image).faultPc = 0 := rfl
@[simp] theorem State.initial_faultValue : (State.initial cfg image).faultValue = 0 := rfl
@[simp] theorem State.initial_steps : (State.initial cfg image).steps = 0 := rfl
@[simp] theorem State.initial_out : (State.initial cfg image).out = [] := rfl
@[simp] theorem State.initial_draws : (State.initial cfg image).draws = 0 := rfl
@[simp] theorem State.initial_sp : (State.initial cfg image).sp = trunc8 (cfg.memSize - 1) := rfl
@[simp] theorem State.initial_flE : (State.initial cfg image).flE = false := by
  simp [State.flE]

end

theorem resetWith_accepted {cfg : Config} {image : List Nat} (hc : cfg.wf)
    (ha : imageAccepted cfg image) :
    resetWith cfg image = .next (State.initial cfg (Memory.ofImage 0 (image.map trunc8))) := by
  rw [resetWith, if_neg (not_not.mpr hc), if_neg (not_not.mpr ha)]

theorem resetWith_imageRefused {cfg : Config} {image : List Nat} (hc : cfg.wf)
    (ha : ¬ imageAccepted cfg image) : resetWith cfg image = .refused .imageRefused := by
  rw [resetWith, if_neg (not_not.mpr hc), if_pos ha]

theorem resetWith_configRefused {cfg : Config} (image : List Nat) (hc : ¬ cfg.wf) :
    resetWith cfg image = .refused .configRefused := by
  rw [resetWith, if_pos hc]

/-- A Reset that answers a state was given an allowed configuration and image. -/
theorem resetWith_next {cfg : Config} {image : List Nat} {s : State}
    (h : resetWith cfg image = .next s) :
    cfg.wf ∧ imageAccepted cfg image ∧
      s = State.initial cfg (Memory.ofImage 0 (image.map trunc8)) := by
  by_cases hc : cfg.wf
  · by_cases ha : imageAccepted cfg image
    · rw [resetWith_accepted hc ha] at h
      exact ⟨hc, ha, (Host.Outcome.next.inj h).symm⟩
    · rw [resetWith_imageRefused hc ha] at h
      cases h
  · rw [resetWith_configRefused image hc] at h
    cases h

end Sys2Proof.Machine
end

