-- ==== Sys2Proof/Tests/Slice0.lean ====
section
/-! SUPPORT. Small tests; every expected result is from 95_test_vectors.md or worked by hand from the
rule named, not from the model. The witnesses at the end show that the hypotheses of the statements can
be met, each clause at a boundary. -/

namespace Sys2Proof.Tests

open Sys2Proof Sys2Proof.Machine

/-! ## Helpers -/

def cfg32 : Config := { Config.default with memSize := 32 }

def cfgLegacy : Config := { Config.default with cmpMode := .legacy }

/-- The reset state with an image, under a configuration. -/
def boot (cfg : Config) (image : List Byte) : State := State.initial cfg (Memory.ofImage 0 image)

/-- The reset state with an image, under the default configuration. -/
def start (image : List Byte) : State := boot Config.default image

/-- Registers R0, R1, the others 0, and SP. -/
def regs (r0 r1 sp : Byte) : Vector Byte 8 := #v[r0, r1, 0, 0, 0, 0, 0, sp]

/-- The state after one step. -/
def after (s : State) : State :=
  match step s with
  | .next t => t
  | .fault _ => s
  | .refused _ => s

/-! ## WellFormed refuses an ill-formed term for each of its checks -/

theorem smoke_operand_a :
    [Instr.ldi 8 0, .prn 8, .add 8 0, .mul 8 0, .cmp 8 0, .and 8 0, .or 8 0, .xor 8 0, .not 8,
      .shl 8 0, .shr 8 0, .push 8, .pop 8, .call 8, .jmp 8, .jeq 8, .jne 8].all
      (fun i => !i.wellFormed) = true := by decide

theorem smoke_operand_b :
    [Instr.add 0 8, .mul 0 8, .cmp 0 8, .and 0 8, .or 0 8, .xor 0 8, .shl 0 8, .shr 0 255].all
      (fun i => !i.wellFormed) = true := by decide

theorem smoke_accepts :
    [Instr.hlt, .ret, .ldi 7 255, .prn 7, .add 7 7, .jne 0].all Instr.wellFormed = true := by decide

/-! ## Decoding: words written out from 30_encoding.md R78 -/

theorem test_decode_N :
    decode OpcodeMap.default [0b00000001, 0x45] = .ok (.hlt, [0x45]) ∧
    decode OpcodeMap.default [0b00010001] = .ok (.ret, []) := by decide

theorem test_decode_RI :
    decode OpcodeMap.default [0b10000010, 0b00000011, 0b11001000] = .ok (.ldi 3 200, []) := by decide

theorem test_decode_R :
    decode OpcodeMap.default [0b01000111, 5] = .ok (.prn 5, []) ∧
    decode OpcodeMap.default [0b01101001, 5] = .ok (.not 5, []) ∧
    decode OpcodeMap.default [0b01000101, 5] = .ok (.push 5, []) ∧
    decode OpcodeMap.default [0b01000110, 5] = .ok (.pop 5, []) ∧
    decode OpcodeMap.default [0b01010000, 5] = .ok (.call 5, []) ∧
    decode OpcodeMap.default [0b01010100, 5] = .ok (.jmp 5, []) ∧
    decode OpcodeMap.default [0b01010101, 5] = .ok (.jeq 5, []) ∧
    decode OpcodeMap.default [0b01010110, 5] = .ok (.jne 5, []) := by decide

theorem test_decode_RR :
    decode OpcodeMap.default [0b10100000, 1, 2] = .ok (.add 1 2, []) ∧
    decode OpcodeMap.default [0b10100010, 1, 2] = .ok (.mul 1 2, []) ∧
    decode OpcodeMap.default [0b10100111, 1, 2] = .ok (.cmp 1 2, []) ∧
    decode OpcodeMap.default [0b10101000, 1, 2] = .ok (.and 1 2, []) ∧
    decode OpcodeMap.default [0b10101010, 1, 2] = .ok (.or 1 2, []) ∧
    decode OpcodeMap.default [0b10101011, 1, 2] = .ok (.xor 1 2, []) ∧
    decode OpcodeMap.default [0b10101100, 1, 2] = .ok (.shl 1 2, []) ∧
    decode OpcodeMap.default [0b10101101, 1, 2] = .ok (.shr 1 2, []) := by decide

theorem test_decode_rejects :
    decode OpcodeMap.default [] = .error .noBytes ∧
    decode OpcodeMap.default [0x83, 0, 0] = .error (.unknownOpcode 0x83) ∧
    decode OpcodeMap.default [0x47] = .error (.operandMissing .prn 1) ∧
    decode OpcodeMap.default [0x82, 0] = .error (.operandMissing .ldi 2) := by decide

/-- Every row of spec/opcode_table.json, with its match value, operand bytes zero. -/
theorem test_decode_table :
    [0x01, 0x82, 0x47, 0xA0, 0xA2, 0xA7, 0xA8, 0xAA, 0xAB, 0x69, 0xAC, 0xAD, 0x45, 0x46, 0x50, 0x11,
      0x54, 0x55, 0x56].map (decodeTableWord 8) =
    [Instr.hlt, .ldi 0 0, .prn 0, .add 0 0, .mul 0 0, .cmp 0 0, .and 0 0, .or 0 0, .xor 0 0, .not 0,
      .shl 0 0, .shr 0 0, .push 0, .pop 0, .call 0, .ret, .jmp 0, .jeq 0, .jne 0].map some := by decide

/-- A placed word is what the next step runs: LDI R2, 200 from reset. -/
theorem test_withFetchWord :
    (after (State.reset.withFetchWord 24 0xC80282)).readReg 2 = 200 := by decide

/-! ## One step of each instruction (95_test_vectors.md section 2) -/

/-- B1. -/
theorem test_hlt :
    (after { start [0, 0, 0, 0, 0, 1] with pc := 5 }).pc = 6 ∧
    (after { start [0, 0, 0, 0, 0, 1] with pc := 5 }).runState = .halted ∧
    (after { start [0, 0, 0, 0, 0, 1] with pc := 5 }).steps = 1 := by decide

/-- B4, and B3: LDI of R7 sets SP. -/
theorem test_ldi :
    (after (start [0x82, 0, 0xFF])).readReg 0 = 255 ∧ (after (start [0x82, 7, 0x10])).sp = 16 := by decide

/-- B5. -/
theorem test_ldi_regRange :
    (after (start [0x82, 8, 1])).faultCause = .regRange ∧
    (after (start [0x82, 8, 1])).faultValue = 8 ∧ (after (start [0x82, 8, 1])).steps = 0 := by decide

/-- 40_basic.md R102's example: the byte 72 is appended. -/
theorem test_prn :
    (after { start [0x47, 0] with regs := regs 72 0 255, out := [9] }).out = [9, 72] := by decide

/-- A2. -/
theorem test_add : (after { start [0xA0, 0, 1] with regs := regs 200 100 255 }).readReg 0 = 44 := by decide

/-- A4: source and destination are one register. -/
theorem test_add_same : (after { start [0xA0, 0, 0] with regs := regs 128 1 255 }).readReg 0 = 0 := by decide

/-- A7. -/
theorem test_mul : (after { start [0xA2, 0, 1] with regs := regs 255 255 255 }).readReg 0 = 1 := by decide

/-- A28: A is checked before B. -/
theorem test_mul_regRange : (after (start [0xA2, 9, 10])).faultValue = 9 := by decide

/-- C4 and C5: the compare is unsigned. -/
theorem test_cmp :
    (after { start [0xA7, 0, 1] with regs := regs 0 255 255 }).fl = 0b100 ∧
    (after { start [0xA7, 0, 1] with regs := regs 255 0 255 }).fl = 0b010 := by decide

/-- C6 and C7. -/
theorem test_cmp_legacy :
    (after { boot cfgLegacy [0xA7, 0, 1] with regs := regs 8 8 255, fl := 0b100 }).fl = 0b001 ∧
    (after { boot cfgLegacy [0xA7, 0, 1] with regs := regs 8 9 255 }).fl = 0b100 := by decide

/-- A10. -/
theorem test_and : (after { start [0xA8, 0, 1] with regs := regs 0xF0 0x3C 255 }).readReg 0 = 0x30 := by decide

/-- A11. -/
theorem test_or : (after { start [0xAA, 0, 1] with regs := regs 0xF0 0x3C 255 }).readReg 0 = 0xFC := by decide

/-- A12. -/
theorem test_xor : (after { start [0xAB, 0, 1] with regs := regs 0xF0 0x3C 255 }).readReg 0 = 0xCC := by decide

/-- A13: both operands are read before the write. -/
theorem test_xor_same : (after { start [0xAB, 0, 0] with regs := regs 0x5A 0 255 }).readReg 0 = 0 := by decide

/-- A15, and the advance of 2. -/
theorem test_not :
    (after { start [0x69, 0] with regs := regs 0x0C 0 255 }).readReg 0 = 0xF3 ∧
    (after { start [0x69, 0] with regs := regs 0x0C 0 255 }).pc = 2 := by decide

/-- A18 and A21: a bit is lost; the amount is not masked. -/
theorem test_shl :
    (after { start [0xAC, 0, 1] with regs := regs 0x81 1 255 }).readReg 0 = 0x02 ∧
    (after { start [0xAC, 0, 1] with regs := regs 0xFF 200 255 }).readReg 0 = 0 := by decide

/-- A24 and A25: logical; 8 gives 0. -/
theorem test_shr :
    (after { start [0xAD, 0, 1] with regs := regs 0x80 7 255 }).readReg 0 = 1 ∧
    (after { start [0xAD, 0, 1] with regs := regs 0xFF 8 255 }).readReg 0 = 0 := by decide

/-- S3: PUSH R7 stores the decremented SP. -/
theorem test_push_r7 :
    (after (start [0x45, 7])).sp = 254 ∧ (after (start [0x45, 7])).mem.read 254 = 254 := by decide

/-- S9: SP is brought into a 32-cell memory. -/
theorem test_push_wraps :
    (after { boot cfg32 [0x45, 0] with regs := regs 9 0 200 }).sp = 7 ∧
    (after { boot cfg32 [0x45, 0] with regs := regs 9 0 200 }).mem.read 7 = 9 := by decide

/-- S6: POP R7 increments what it popped. -/
theorem test_pop_r7 :
    (after { start [0x46, 7] with
      regs := regs 0 0 254, mem := [(0, 0x46), (1, 7), (254, 0x40)] }).sp = 0x41 := by decide

/-- S10. -/
theorem test_pop_addrRange :
    (after { boot cfg32 [0x46, 0] with regs := regs 1 0 200 }).faultCause = .addrRange ∧
    (after { boot cfg32 [0x46, 0] with regs := regs 1 0 200 }).faultValue = 200 := by decide

/-- T2: the target is read after the decrement. -/
theorem test_call_r7 :
    (after (start [0x50, 7])).pc = 254 ∧ (after (start [0x50, 7])).mem.read 254 = 2 := by decide

/-- T3. -/
theorem test_call_retAddrRange :
    (after { start [] with pc := 254, mem := [(254, 0x50), (255, 1)] }).faultCause = .retAddrRange ∧
    (after { start [] with pc := 254, mem := [(254, 0x50), (255, 1)] }).faultValue = 256 ∧
    (after { start [] with pc := 254, mem := [(254, 0x50), (255, 1)] }).sp = 255 := by decide

/-- T4. -/
theorem test_ret :
    (after { start [] with regs := regs 0 0 254, mem := [(0, 0x11), (254, 8)] }).pc = 8 ∧
    (after { start [] with regs := regs 0 0 254, mem := [(0, 0x11), (254, 8)] }).sp = 255 := by decide

/-- T15: a target outside a 32-cell memory is no fault of the jump. -/
theorem test_jmp :
    (after { boot cfg32 [0x54, 0] with regs := regs 40 0 31 }).pc = 40 ∧
    (after { boot cfg32 [0x54, 0] with regs := regs 40 0 31 }).runState = .running := by decide

/-- T7 and T9: only E counts. -/
theorem test_jeq :
    (after { start [0x55, 0] with regs := regs 0x1F 0 255, fl := 0b001 }).pc = 0x1F ∧
    (after { start [0x55, 0] with regs := regs 0x1F 0 255, fl := 0b010 }).pc = 2 := by decide

/-- T14: the register is checked although the jump is not taken. -/
theorem test_jeq_regRange : (after (start [0x55, 8])).faultValue = 8 := by decide

/-- T11 and T13. -/
theorem test_jne :
    (after { start [0x56, 0] with regs := regs 12 0 255, fl := 0b001 }).pc = 2 ∧
    (after { start [0x56, 0] with regs := regs 12 0 255 }).pc = 12 := by decide

/-! ## Fetch and the end of a run -/

/-- D1 and D4: 0x00 is unknown; an unknown opcode in the last cell is not ADDR_RANGE. -/
theorem test_unknownOpcode :
    (after State.reset).faultCause = .unknownOpcode ∧
    (after { start [] with pc := 255, mem := [(255, 0xFF)] }).faultCause = .unknownOpcode ∧
    (after { start [] with pc := 255, mem := [(255, 0xFF)] }).faultValue = 0xFF := by decide

/-- B8 and B9. -/
theorem test_operand_addrRange :
    (after { start [] with pc := 254, mem := [(254, 0x82)] }).faultValue = 256 ∧
    (after { start [] with pc := 254, mem := [(254, 0x82)] }).faultPc = 254 ∧
    (after { start [] with pc := 255, mem := [(255, 0x47)] }).faultValue = 256 := by decide

/-- D5: PRN in the last two cells runs, and pc is 256. -/
theorem test_pc_end : (after { start [] with pc := 254, mem := [(254, 0x47)] }).pc = 256 := by decide

/-- D6. -/
theorem test_halted_stays : after { start [1] with runState := .halted } = { start [1] with runState := .halted } := by
  decide

/-- 10_state.md R47. -/
theorem test_render :
    ({ start [] with out := [0, 72, 255] } : State).renderOut =
      ['0', '\n', '7', '2', '\n', '2', '5', '5', '\n'] := by decide

/-- The source's scenario W6 as text (30_encoding.md R90) has the bytes of program P1. -/
theorem test_assemble :
    assembleLine OpcodeMap.default "LDI R0,8; LDI R1,9; MUL R0,R1; PRN R0; HLT".toList =
      some [0x82, 0, 8, 0x82, 1, 9, 0xA2, 0, 1, 0x47, 0, 1] := by decide

/-- 30_encoding.md R90: three bases; SP is not a register name; 256 is no immediate. -/
theorem test_assemble_forms :
    parseInstr "LDI R0, 0xF0".toList = some (.ldi 0 0xF0) ∧
    parseInstr "LDI R0, 0b101".toList = some (.ldi 0 5) ∧
    parseInstr "PUSH SP".toList = none ∧ parseInstr "LDI R0, 256".toList = none := by decide

/-! ## Witnesses: the hypotheses of the statements can be met -/

theorem witness_Config : Config.default.wf ∧ cfg32.wf ∧ cfgLegacy.wf ∧
    ({ Config.default with memSize := 1 } : Config).wf := by decide

/-- ResetSetsEveryValue: an image that is shorter than memory, and one that fills it. -/
theorem witness_ResetSetsEveryValue :
    cfg32.wf ∧ imageAccepted cfg32 [0x82, 255, 0] ∧ imageAccepted cfg32 (List.replicate 32 7) := by decide

/-- ResetRefusesExactlyBadImages: one cell too many, and an element of 256. -/
theorem witness_ResetRefusesExactlyBadImages :
    cfg32.memSize < (List.replicate 33 7).length ∧ (∃ b ∈ [1, 256], 255 < b) ∧
    resetWith cfg32 (List.replicate 33 7) = .refused .imageRefused ∧
    resetWith cfg32 [1, 256] = .refused .imageRefused := by
  exact ⟨by decide, by decide, rfl, rfl⟩

/-- ResetStatesAreWellFormed. -/
theorem witness_ResetStates : resetWith cfg32 [0x55, 0] = .next (boot cfg32 [0x55, 0]) := rfl

/-- BranchesBeforeTheFirstCmp: a PRN runs between the Reset and the JEQ. -/
theorem witness_BranchesBeforeTheFirstCmp :
    resetWith cfg32 [0x47, 0, 0x55, 0] = .next (boot cfg32 [0x47, 0, 0x55, 0]) ∧
    StepsTo 1 (boot cfg32 [0x47, 0, 0x55, 0]) (after (boot cfg32 [0x47, 0, 0x55, 0])) ∧
    NoCmpRuns 1 (boot cfg32 [0x47, 0, 0x55, 0]) := by
  refine ⟨rfl, rfl, fun j u hj hu _ a b => ?_⟩
  obtain rfl : j = 0 := by omega
  cases hu
  rw [show (boot cfg32 [0x47, 0, 0x55, 0]).fetchInstr = .ok (.prn 0) by decide]
  simp

/-- EveryStepKeepsInv, and the invariant in every other statement that has it as a premise. -/
theorem witness_Inv : (start [0x45, 7]).Inv ∧ ∃ t, step (start [0x45, 7]) = .next t :=
  ⟨by constructor <;> decide, _, rfl⟩

theorem witness_CanonicalMemoryIsUnique :
    Memory.wf [(3, 5)] = true ∧ Memory.wf (Memory.write [] 3 5) = true ∧
    ∀ a, Memory.read [(3, 5)] a = Memory.read (Memory.write [] 3 5) a :=
  ⟨by decide, by decide, fun _ => rfl⟩

theorem witness_DecodeOfEncodeIsIdentity : OpcodeMap.default.wf := by decide

theorem witness_EncodeOfDecodeIsIdentity :
    decode OpcodeMap.default [0xA0, 9, 255, 1] = .ok (.add 9 255, [1]) := by decide

theorem witness_AssemblyTextReadsBack : (Instr.ldi 7 255).wellFormed = true := by decide

/-- StepRunsTheDecodedInstruction: the widest instruction in the last three cells, and HLT in the last. -/
theorem witness_StepRunsTheDecodedInstruction :
    (start []).runState = .running ∧
    decode OpcodeMap.default
      (({ start [] with pc := 253, mem := [(253, 0xA0), (254, 1), (255, 2)] } : State).bytesFrom 3 253) =
      .ok (.add 1 2, []) ∧
    decode OpcodeMap.default
      (({ start [] with pc := 255, mem := [(255, 1)] } : State).bytesFrom 3 255) = .ok (.hlt, []) := by
  decide

/-- FetchFaultsComeInOrder, each clause at the end of a 32-cell memory: pc = 32; an unknown opcode in
cell 31; a PRN in cell 31; an ADD in cells 30 and 31. -/
theorem witness_FetchFaultsComeInOrder :
    (boot cfg32 []).runState = .running ∧
    cfg32.memSize ≤ ({ boot cfg32 [] with pc := 32 } : State).pc.toNat ∧
    (({ boot cfg32 [] with pc := 31 } : State).pc.toNat < cfg32.memSize ∧
      OpcodeMap.default.lookup (({ boot cfg32 [] with pc := 31 } : State).mem.read 31) = none) ∧
    (OpcodeMap.default.lookup (({ boot cfg32 [] with mem := [(31, 0x47)] } : State).mem.read 31) = some .prn ∧
      1 ≤ Mnemonic.prn.format.operandCount ∧ 31 < cfg32.memSize ∧ cfg32.memSize ≤ 31 + 1) ∧
    (OpcodeMap.default.lookup (({ boot cfg32 [] with mem := [(30, 0xA0)] } : State).mem.read 30) = some .add ∧
      Mnemonic.add.format.operandCount = 2 ∧ 30 + 1 < cfg32.memSize ∧ cfg32.memSize ≤ 30 + 2) := by
  decide

/-- BadRegisterOperandRaisesRegRange: A alone, B alone, and A before B. -/
theorem witness_BadRegisterOperandRaisesRegRange :
    (Instr.ldi 8 0).regBytes.find? (fun x => decide (8 ≤ x.toNat)) = some 8 ∧
    (Instr.add 7 255).regBytes.find? (fun x => decide (8 ≤ x.toNat)) = some 255 ∧
    (Instr.add 9 10).regBytes.find? (fun x => decide (8 ≤ x.toNat)) = some 9 := by decide

/-- FaultsArePrecise, RaisedCausesAreTheFour and FullMemoryFaultsOnlyAtItsEnd. -/
theorem witness_Faults :
    ({ start [] with pc := 256 } : State).Inv ∧
    step { start [] with pc := 256 } = .next (after { start [] with pc := 256 }) ∧
    (after { start [] with pc := 256 }).runState = .faulted ∧
    (after { start [] with pc := 256 }).faultCause = .addrRange :=
  ⟨by constructor <;> decide, rfl, by decide, by decide⟩

theorem witness_EndedCoreNeverChanges :
    ({ start [] with runState := .halted } : State).ended ∧
    ({ start [] with runState := .faulted } : State).ended := by decide

/-- RunStateFollowsItsTable: a step that halts, one that faults, one that goes on. -/
theorem witness_RunStateFollowsItsTable :
    (after (start [1])).runState = .halted ∧ (after (start [0])).runState = .faulted ∧
    (after (start [0x47, 0])).runState = .running := by decide

/-- StepsCountsEveryStep and NoStepChangesConfiguration. -/
theorem witness_Runs :
    StepsTo 1 (start [0x47, 0]) (after (start [0x47, 0])) ∧
    (after (start [0x47, 0])).runState = .running := ⟨rfl, by decide⟩

theorem witness_OnlyCmpWritesFl : (after (start [0xA7, 0, 0])).fl ≠ (start [0xA7, 0, 0]).fl := by decide

theorem witness_OnlyPrnAppendsToOut : (after (start [0x47, 7])).out ≠ (start [0x47, 7]).out := by decide

/-- OnlyPushAndCallWriteMemory: a PUSH and a CALL that change a cell. -/
theorem witness_OnlyPushAndCallWriteMemory :
    (after (start [0x45, 7])).mem.read 254 ≠ (start [0x45, 7]).mem.read 254 ∧
    (after (start [0x50, 0])).mem.read 254 ≠ (start [0x50, 0]).mem.read 254 := by decide

/-- RegisterTableBoundsReadsAndWrites: other registers differ, and the instruction completes. -/
theorem witness_RegisterTableBoundsReadsAndWrites :
    (∀ q : RegIdx, q.val ∈ regReads (.push 0) →
      (#v[0, 9, 9, 9, 9, 9, 9, 255] : Vector Byte 8)[q] = (start [0x45, 0]).readReg q) ∧
    (start [0x45, 0]).runState ≠ .faulted ∧ (after (start [0x45, 0])).runState ≠ .faulted := by decide

/-- EveryListedRegisterIsUsed: two distinct registers, and the same one for PUSH and its SP. -/
theorem witness_EveryListedRegisterIsUsed :
    (Instr.add 6 7).wellFormed = true ∧ (Instr.add 6 7).regBytes.Nodup ∧
    (Instr.push 7).wellFormed = true ∧ (Instr.push 7).regBytes.Nodup := by decide

/-- NextPcIsTargetOrExactAdvance: an explicit target, and an advance to MEM_SIZE. -/
theorem witness_NextPcIsTargetOrExactAdvance :
    (start [0x54, 7]).fetchInstr = .ok (.jmp 7) ∧ explicitTarget (.jmp 7) (start [0x54, 7]) = some 255 ∧
    (after (start [0x54, 7])).runState ≠ .faulted ∧
    ({ start [] with pc := 254, mem := [(254, 0x47)] } : State).fetchInstr = .ok (.prn 0) ∧
    explicitTarget (.prn 0) (start []) = none ∧
    (after { start [] with pc := 254, mem := [(254, 0x47)] }).runState ≠ .faulted := by decide

/-- FetchLooksAtItsWidthOnly: the byte after a HLT differs. -/
theorem witness_FetchLooksAtItsWidthOnly :
    (start [1]).fetchInstr = .ok .hlt ∧
    ∀ j, j < Instr.width .hlt → Memory.read [(0, 1), (1, 9)] (0 + j) = (start [1]).mem.read (0 + j) := by
  decide

/-- OutOfRangeTargetFaultsAtTheNextFetch: a JMP, a CALL and a RET to 32 in 32 cells. -/
theorem witness_OutOfRangeTarget :
    cfg32.wf ∧
    ({ boot cfg32 [0x54, 0] with regs := regs 32 0 31 } : State).fetchInstr = .ok (.jmp 0) ∧
    explicitTarget (.jmp 0) { boot cfg32 [0x54, 0] with regs := regs 32 0 31 } = some 32 ∧
    ({ boot cfg32 [0x50, 0] with regs := regs 32 0 31 } : State).fetchInstr = .ok (.call 0) ∧
    explicitTarget (.call 0) { boot cfg32 [0x50, 0] with regs := regs 32 0 31 } = some 32 ∧
    ({ boot cfg32 [] with mem := [(0, 0x11), (31, 32)] } : State).fetchInstr = .ok .ret ∧
    explicitTarget .ret { boot cfg32 [] with mem := [(0, 0x11), (31, 32)] } = some 32 ∧
    (boot cfg32 []).sp.toNat < cfg32.memSize ∧ cfg32.memSize ≤ (32 : Byte).toNat := by decide

/-- HltHalts, at the step. -/
theorem witness_HltHalts : (start [1]).runState = .running ∧ (start [1]).fetchInstr = .ok .hlt := by decide

/-- RunReturnsOnceOrHangs. -/
theorem witness_RunReturns : RunReturns (start [1]) (after (start [1])) :=
  ⟨by decide, 1, rfl⟩

/-- The register checks of the instruction statements, at the boundary: A is 8; A is 7 and B is 8. -/
theorem witness_Checks :
    8 ≤ (8 : Byte).toNat ∧ (7 : Byte).toNat < 8 ∧ 8 ≤ (8 : Byte).toNat := by decide

theorem witness_JmpToItselfHangs :
    (start [0x54, 0]).fetchInstr = .ok (.jmp (regByte 0)) ∧
    ((start [0x54, 0]).readReg 0).toNat = (start [0x54, 0]).pc.toNat := by decide

/-- CmpWritesTheFlags and CmpDecidesTheNextBranch: the orders and modes their clauses name. -/
theorem witness_Cmp :
    (start []).cfg.cmpMode = .corrected ∧ (boot cfgLegacy []).cfg.cmpMode = .legacy ∧
    (({ start [] with regs := regs 8 8 255 } : State).readReg 0).toNat =
      (({ start [] with regs := regs 8 8 255 } : State).readReg 1).toNat ∧
    (({ start [] with regs := regs 8 9 255 } : State).readReg 0).toNat <
      (({ start [] with regs := regs 8 9 255 } : State).readReg 1).toNat ∧
    (({ boot cfgLegacy [] with regs := regs 9 8 255 } : State).readReg 1).toNat <
      (({ boot cfgLegacy [] with regs := regs 9 8 255 } : State).readReg 0).toNat := by decide

/-- NotWritesTheComplement, at the step: a NOT in the last two cells. -/
theorem witness_Not :
    ({ start [] with pc := 254, mem := [(254, 0x69), (255, 7)] } : State).pc.toNat + 2 = 256 ∧
    OpcodeMap.default.lookup
      (({ start [] with pc := 254, mem := [(254, 0x69), (255, 7)] } : State).mem.read 254) = some .not ∧
    ({ start [] with pc := 254, mem := [(254, 0x69), (255, 7)] } : State).mem.read (254 + 1) =
      regByte 7 := by decide

/-- ShlShiftsByTheWholeByte and ShrShiftsByTheWholeByte: the amount 8. -/
theorem witness_Shift : 8 ≤ (({ start [] with regs := regs 1 8 255 } : State).readReg 1).toNat := by decide

/-- SpArithmeticWrapsInMemory, PushStoresBelowTheStack, PushThenPopRestores and StoredByteIsFetched: SP
in memory and SP above it, memory canonical. -/
theorem witness_Stack :
    (boot cfg32 [0x45, 0]).cfg.wf ∧ (boot cfg32 [0x45, 0]).mem.wf = true ∧
    (boot cfg32 [0x45, 0]).sp.toNat < cfg32.memSize ∧
    cfg32.memSize ≤ ({ boot cfg32 [0x45, 0] with regs := regs 0 0 32 } : State).sp.toNat ∧
    (start []).cfg.memSize = 256 := by decide

/-- StoredByteIsFetched: a PUSH of the byte of PRN, whose operand cell is the last; a PUSH of 0, which no
instruction has; a CALL whose return address 0x11 is the byte of RET. -/
theorem witness_StoredByteIsFetched :
    OpcodeMap.default.lookup 0x47 = some .prn ∧ OpcodeMap.default.lookup 0 = none ∧
    (254 : Byte).toNat + Mnemonic.prn.format.operandCount < Config.default.memSize ∧
    ({ after { start [0x45, 0] with regs := regs 0x47 0 255 } with pc := zext9 254 } : State).fetchInstr =
      .ok (.prn 0) ∧
    ({ start [] with pc := 15 } : State).pc.toNat + 2 ≤ 255 ∧
    OpcodeMap.default.lookup (trunc8 (15 + 2)) = some .ret := by decide

/-- PopTakesTheTopOfTheStack and RetTakesTheTopOfTheStack: SP 31 and 32 in 32 cells; R7 and another. -/
theorem witness_Pop :
    (boot cfg32 []).sp.toNat = 31 ∧ 31 < cfg32.memSize ∧
    cfg32.memSize ≤ ({ boot cfg32 [] with regs := regs 0 0 32 } : State).sp.toNat ∧
    (0 : RegIdx) ≠ spIdx ∧ (7 : RegIdx) = spIdx := by decide

/-- CallStoresItsReturnAddress and RetResumesAfterTheCall: a CALL at 253 and one at 254; the state after
the CALL itself meets what RetResumesAfterTheCall asks of `u`. -/
theorem witness_Call :
    ({ start [] with pc := 253 } : State).pc.toNat + 2 ≤ 255 ∧
    255 < ({ start [] with pc := 254 } : State).pc.toNat + 2 ∧
    (start []).cfg.wf ∧ (start []).mem.wf = true ∧ (start []).sp.toNat < (start []).cfg.memSize := by decide

/-- JeqJumpsWhenEqual and JneJumpsWhenNotEqual: E set and E clear. -/
theorem witness_Branch :
    ({ start [] with fl := flagE } : State).fl.getLsbD 0 = true ∧
    ({ start [] with fl := flagG } : State).fl.getLsbD 0 = false := by decide

/-- ResultOfAnEndedRun and DebugReadShowsCells: each run state, and the cells around MEM_SIZE. -/
theorem witness_Boundary :
    (start []).runState = .running ∧ (after (start [1])).runState = .halted ∧
    (after (start [])).runState = .faulted ∧ (boot cfg32 []).debugCell 31 = some 0 ∧
    (boot cfg32 []).debugCell 32 = none := by decide

end Sys2Proof.Tests
end

section
/-! PROOFS. 10_state.md: what a step can do to a state, and what every step keeps. -/

namespace Sys2Proof.Machine

/-! ### What a step can do -/

/-- The causes that a step can raise: every one but NONE and UNSUPPORTED_ALU_OP (60_exceptions.md R170,
R172). -/
def FaultCause.Raisable (c : FaultCause) : Prop := c ≠ .none ∧ c ≠ .unsupportedAluOp

theorem RaisedBy.raisable {i : Instr} {s : State} {f : Raised} (h : RaisedBy i s f) :
    f.cause.Raisable := by
  rcases h with ⟨hc, -⟩ | ⟨hc, -⟩ | ⟨hc, -⟩ <;> simp [FaultCause.Raisable, hc]

theorem FetchRaises.raisable {s : State} {f : Raised} (h : FetchRaises s f) : f.cause.Raisable := by
  rcases h.cause with hc | hc <;> simp [FaultCause.Raisable, hc]

/-- `step_cases` read from the answer: an ended core stays, a fault is taken from `s`, or the fetched
instruction completes and counts. -/
theorem step_next_cases {s t : State} (h : step s = .next t) :
    (s.ended ∧ t = s) ∨
    (s.runState = .running ∧ ∃ f : Raised, f.cause.Raisable ∧ t = s.enterFault f) ∨
    (s.runState = .running ∧ ∃ i c, s.fetchInstr = .ok i ∧
      s.pc.toNat + i.width ≤ s.cfg.memSize ∧ Completed i s c ∧ t = c.countStep) := by
  by_cases hr : s.runState = .running
  · rcases step_cases hr with ⟨i, c, hi, hw, -, hc, -, hs⟩ | ⟨_, f, -, -, hf, hs⟩ | ⟨f, -, hf, hs⟩ <;>
      obtain rfl := Host.Outcome.next.inj (h.symm.trans hs)
    · exact .inr (.inr ⟨hr, i, c, hi, hw, hc, rfl⟩)
    · exact .inr (.inl ⟨hr, f, hf.raisable, rfl⟩)
    · exact .inr (.inl ⟨hr, f, hf.raisable, rfl⟩)
  · exact .inl ⟨hr, Host.Outcome.next.inj (h.symm.trans (step_of_ended hr))⟩

theorem step_answers (s : State) : ∃ t, step s = .next t := by
  by_cases hr : s.runState = .running
  · rcases step_cases hr with ⟨_, c, -, -, -, -, -, h⟩ | ⟨_, f, -, -, -, h⟩ | ⟨f, -, -, h⟩
    · exact ⟨_, h⟩
    · exact ⟨_, h⟩
    · exact ⟨_, h⟩
  · exact ⟨s, step_of_ended hr⟩

/-! ### Every step keeps the invariant -/

theorem zext9_toNat (v : Byte) : (zext9 v).toNat = v.toNat := by
  simp only [zext9, BitVec.toNat_ofNat]
  omega

/-- A 9-bit pc does not wrap on an advance within memory (10_state.md R25). -/
theorem pc_add_toNat {pc : Word9} {w n : Nat} (h : pc.toNat + w ≤ n) (hn : n ≤ 256) :
    (pc + BitVec.ofNat 9 w).toNat = pc.toNat + w := by
  simp only [BitVec.toNat_add, BitVec.toNat_ofNat]
  omega

theorem cmpFlags_legal {old : Byte} (h : flLegal old) (mode : CmpMode) (va vb : Byte) (keep : Bool) :
    flLegal (cmpFlags mode va vb old keep) := by
  rcases cmpFlags_cases mode va vb old keep with hc | hc | hc | hc | hc
  · exact .inr (.inl hc)
  · exact .inr (.inr (.inl hc))
  · exact .inr (.inr (.inr hc))
  · rw [hc]; exact h
  · exact .inl hc

theorem State.Inv.enterFault {s : State} (h : s.Inv) {f : Raised} (hf : f.cause.Raisable) :
    (s.enterFault f).Inv where
  cfg := h.cfg
  memCanonical := h.memCanonical
  memBelow := h.memBelow
  pcRange := h.pcRange
  fl := h.fl
  record := ⟨fun hr => absurd rfl hr, fun _ => ⟨hf.1, hf.2, rfl⟩⟩

theorem State.Inv.countStep {s : State} (h : s.Inv) : s.countStep.Inv :=
  ⟨h.cfg, h.memCanonical, h.memBelow, h.pcRange, h.fl, h.record⟩

section
variable {i : Instr} {s t : State} (h : s.Inv) (hc : Completed i s t)
include h hc

theorem Completed.mem_canonical : t.mem.wf = true := by
  rcases hc.mem with ⟨_, v, -, -, hm⟩ | hm <;> rw [hm]
  · exact Memory.write_wf h.memCanonical _ v
  · exact h.memCanonical

theorem Completed.mem_below : t.mem.below t.cfg.memSize = true := by
  rw [hc.cfg]
  rcases hc.mem with ⟨_, v, -, hlt, hm⟩ | hm <;> rw [hm]
  · exact Memory.write_below h.memBelow hlt v
  · exact h.memBelow

/-- The pc after a completed instruction: a byte, or an advance within memory. -/
theorem Completed.pc_range (hw : s.pc.toNat + i.width ≤ s.cfg.memSize) :
    t.pc.toNat ≤ t.cfg.memSize ∨ t.pc.toNat ≤ 255 := by
  rw [hc.cfg]
  rcases hc.pc with ⟨v, -, hp⟩ | ⟨-, hp⟩ <;> rw [hp]
  · exact .inr (by rw [zext9_toNat]; omega)
  · exact .inl (by rw [pc_add_toNat hw h.cfg.2.1]; exact hw)

theorem Completed.fl_legal : flLegal t.fl := by
  rcases hc.fl with ⟨-, va, vb, keep, hf⟩ | hf <;> rw [hf]
  · exact cmpFlags_legal h.fl _ va vb keep
  · exact h.fl

theorem Completed.record_ok (hr : s.runState = .running) : t.recordOk := by
  obtain ⟨hcause, hpc, hvalue⟩ := h.record.1 (by simp [hr])
  have hne : t.runState ≠ .faulted := by
    rw [hc.runState, hr]
    split <;> simp
  exact ⟨fun _ => ⟨hc.faultCause.trans hcause, hc.faultPc.trans hpc, hc.faultValue.trans hvalue⟩,
    fun hf => absurd hf hne⟩

/-- An instruction that completes from a RUNNING core keeps the invariant. -/
theorem Completed.inv (hr : s.runState = .running) (hw : s.pc.toNat + i.width ≤ s.cfg.memSize) :
    t.Inv where
  cfg := hc.cfg ▸ h.cfg
  memCanonical := hc.mem_canonical h
  memBelow := hc.mem_below h
  pcRange := hc.pc_range h hw
  fl := hc.fl_legal h
  record := hc.record_ok h hr

end

/-- Settles O4, by the three things a step can do: nothing, take a fault, or complete an instruction. -/
theorem everyStepKeepsInv : Obligations.EveryStepKeepsInv := by
  intro s t h hs
  rcases step_next_cases hs with ⟨-, rfl⟩ | ⟨-, f, hf, rfl⟩ | ⟨hr, i, c, -, hw, hc, rfl⟩
  · exact h
  · exact h.enterFault hf
  · exact (hc.inv h hr hw).countStep

end Sys2Proof.Machine
end

section
/-! PROOFS. 10_state.md: canonical memory, runs, and which instruction changes which piece of state. -/

namespace Sys2Proof.Machine

/-! ### The canonical memory is unique -/

theorem Memory.wfFrom_cons {lo k : Nat} {v : Byte} {m : Memory} :
    Memory.wfFrom lo ((k, v) :: m) = true ↔
      lo ≤ k ∧ v ≠ Memory.unlisted ∧ Memory.wfFrom (k + 1) m = true := by
  simp only [Memory.wfFrom, Bool.and_eq_true, decide_eq_true_eq, and_assoc]

theorem Memory.read_cons_self (k : Nat) (v : Byte) (m : Memory) : Memory.read ((k, v) :: m) k = v :=
  if_pos rfl

theorem Memory.read_cons_other {k a : Nat} (v : Byte) (m : Memory) (h : a ≠ k) :
    Memory.read ((k, v) :: m) a = Memory.read m a :=
  if_neg h

/-- The first listed address of a canonical memory is the least one that does not read as unlisted. -/
theorem Memory.head_le_of_read_ne {lo k a : Nat} {v : Byte} {m : Memory}
    (h : Memory.wfFrom lo ((k, v) :: m) = true)
    (ha : Memory.read ((k, v) :: m) a ≠ Memory.unlisted) : k ≤ a := by
  obtain ⟨-, hv, hm⟩ := Memory.wfFrom_cons.mp h
  by_contra hlt
  exact ha (Memory.read_below (Memory.wfFrom_cons.mpr ⟨Nat.le_refl k, hv, hm⟩) (by omega))

theorem Memory.eq_of_read_eq {m : Memory} : ∀ {n : Memory} {lo lo' : Nat},
    Memory.wfFrom lo m = true → Memory.wfFrom lo' n = true →
    (∀ a, Memory.read m a = Memory.read n a) → m = n := by
  induction m with
  | nil =>
    intro n _ lo' _ hn h
    cases n with
    | nil => rfl
    | cons c n =>
      obtain ⟨k, v⟩ := c
      exact absurd ((h k).trans (Memory.read_cons_self k v n)).symm (Memory.wfFrom_cons.mp hn).2.1
  | cons c m ih =>
    obtain ⟨k, v⟩ := c
    intro n lo lo' hm hn h
    obtain ⟨-, hv, hm'⟩ := Memory.wfFrom_cons.mp hm
    have hk : Memory.read ((k, v) :: m) k = v := Memory.read_cons_self k v m
    cases n with
    | nil => exact absurd (hk.symm.trans (h k)) hv
    | cons d n =>
      obtain ⟨l, w⟩ := d
      obtain ⟨-, hw, hn'⟩ := Memory.wfFrom_cons.mp hn
      have hl : Memory.read ((l, w) :: n) l = w := Memory.read_cons_self l w n
      have hlk : l ≤ k := Memory.head_le_of_read_ne hn (by rw [← h k, hk]; exact hv)
      have hkl : k ≤ l := Memory.head_le_of_read_ne hm (by rw [h l, hl]; exact hw)
      obtain rfl : k = l := by omega
      obtain rfl : v = w := by rw [← hk, h k, hl]
      have htail : ∀ a, Memory.read m a = Memory.read n a := fun a => by
        by_cases hak : a < k + 1
        · rw [Memory.read_below hm' hak, Memory.read_below hn' hak]
        · have hne : a ≠ k := by omega
          rw [← Memory.read_cons_other v m hne, h a, Memory.read_cons_other v n hne]
      rw [ih hm' hn' htail]

/-- Settles O5, by induction on both lists: their first listed addresses bound each other. -/
theorem canonicalMemoryIsUnique : Obligations.CanonicalMemoryIsUnique :=
  fun _ _ hm hn h => Memory.eq_of_read_eq hm hn h

/-! ### Runs -/

theorem stepsTo_one {s t : State} : StepsTo 1 s t ↔ step s = .next t := by
  obtain ⟨u, hu⟩ := step_answers s
  rw [stepsTo_succ hu, stepsTo_zero, hu, Host.Outcome.next.injEq, eq_comm]

theorem stepsTo_of_ended {s : State} (h : s.ended) (k : Nat) (t : State) :
    StepsTo k s t ↔ t = s := by
  induction k with
  | zero => exact stepsTo_zero s t
  | succ k ih => rw [stepsTo_succ (step_of_ended h), ih]

/-- A run of `j + k` steps is a run of `j` steps and one of `k` steps after it. -/
theorem stepsTo_add (j k : Nat) : ∀ s t : State,
    StepsTo (j + k) s t ↔ ∃ u, StepsTo j s u ∧ StepsTo k u t := by
  induction j with
  | zero => intro s t; simp [stepsTo_zero]
  | succ j ih =>
    intro s t
    obtain ⟨v, hv⟩ := step_answers s
    rw [Nat.add_right_comm, stepsTo_succ hv, ih v t]
    simp only [stepsTo_succ hv]

/-- The last step of a longer run. -/
theorem stepsTo_succ_last {k : Nat} {s t : State} :
    StepsTo (k + 1) s t ↔ ∃ u, StepsTo k s u ∧ step u = .next t := by
  simp only [stepsTo_add k 1, stepsTo_one]

/-- What every step keeps, every run keeps. -/
theorem stepsTo_keeps {P : State → Prop} (hstep : ∀ s t, P s → step s = .next t → P t) {k : Nat} :
    ∀ {s t : State}, P s → StepsTo k s t → P t := by
  induction k with
  | zero =>
    intro s t hs h
    rw [stepsTo_zero] at h
    exact h ▸ hs
  | succ k ih =>
    intro s t hs h
    obtain ⟨u, hu⟩ := step_answers s
    exact ih (hstep s u hs hu) ((stepsTo_succ hu t).mp h)

/-- An ended state that `j` steps reach is the state after every larger number of steps. -/
theorem StepsTo.eq_of_ended {j k : Nat} {s t u : State} (ht : t.ended) (hjk : j ≤ k)
    (hj : StepsTo j s t) (hk : StepsTo k s u) : u = t := by
  obtain ⟨d, rfl⟩ := Nat.exists_eq_add_of_le hjk
  obtain ⟨v, hv, hd⟩ := (stepsTo_add j d s u).mp hk
  obtain rfl : v = t := Host.Outcome.next.inj (hv.symm.trans hj)
  exact (stepsTo_of_ended ht d u).mp hd

/-- Settles O22: of two runs that return, the longer one stays where the shorter one ended. -/
theorem runReturnsOnceOrHangs : Obligations.RunReturnsOnceOrHangs := by
  intro s
  constructor
  · rintro t u ⟨ht, j, hj⟩ ⟨hu, k, hk⟩
    rcases Nat.le_total j k with hjk | hkj
    · exact (hj.eq_of_ended ht hjk hk).symm
    · exact hk.eq_of_ended hu hkj hj
  · constructor
    · rintro hangs ⟨t, ht, k, hk⟩
      exact ht (hangs k t hk)
    · intro never k t hk
      by_contra ht
      exact never ⟨t, ht, k, hk⟩

/-- A step after which the core is still RUNNING was a step of a RUNNING core, and it counted. -/
theorem step_steps_of_running {s t : State} (h : step s = .next t) (ht : t.runState = .running) :
    s.runState = .running ∧ t.steps = s.steps + 1 := by
  rcases step_next_cases h with ⟨hs, rfl⟩ | ⟨-, f, -, rfl⟩ | ⟨hr, i, c, -, -, hc, rfl⟩
  · exact absurd ht hs
  · simp at ht
  · exact ⟨hr, by simp [hc.steps]⟩

/-- Settles O23, by induction on the number of steps, the last step taken off. -/
theorem stepsCountsEveryStep : Obligations.StepsCountsEveryStep := by
  intro k
  induction k with
  | zero =>
    intro s t h _
    rw [(stepsTo_zero s t).mp h]
    simp
  | succ k ih =>
    intro s t h ht
    obtain ⟨u, hu, hut⟩ := stepsTo_succ_last.mp h
    obtain ⟨hru, hsteps⟩ := step_steps_of_running hut ht
    rw [hsteps, ih s u hu hru, BitVec.ofNat_add, BitVec.add_assoc]
    rfl

theorem step_cfg {s t : State} (h : step s = .next t) : t.cfg = s.cfg := by
  rcases step_next_cases h with ⟨-, rfl⟩ | ⟨-, f, -, rfl⟩ | ⟨-, i, c, -, -, hc, rfl⟩
  · rfl
  · rfl
  · exact hc.cfg

/-- Settles O25: no step changes the parameters, so no run does. -/
theorem noStepChangesConfiguration : Obligations.NoStepChangesConfiguration :=
  fun s _ _ h => stepsTo_keeps (P := fun u => u.cfg = s.cfg)
    (fun _ _ hu huv => (step_cfg huv).trans hu) rfl h

/-! ### Which instruction changes which piece of state -/

/-- A piece of state that neither a fault nor the step counter writes changes only by an instruction
that completes. -/
theorem completed_of_changed {α : Type} (g : State → α) {s t : State}
    (hfault : ∀ f, g (s.enterFault f) = g s) (hcount : ∀ c : State, g c.countStep = g c)
    (h : step s = .next t) (hne : g t ≠ g s) :
    ∃ i c, s.fetchInstr = .ok i ∧ Completed i s c ∧ g t = g c := by
  rcases step_next_cases h with ⟨-, rfl⟩ | ⟨-, f, -, rfl⟩ | ⟨-, i, c, hi, -, hc, rfl⟩
  · exact absurd rfl hne
  · exact absurd (hfault f) hne
  · exact ⟨i, c, hi, hc, hcount c⟩

/-- Settles O26. -/
theorem onlyCmpWritesFl : Obligations.OnlyCmpWritesFl := by
  intro s t h hne
  obtain ⟨i, c, hi, hc, hg⟩ :=
    completed_of_changed State.fl (fun _ => rfl) (fun _ => rfl) h hne
  rcases hc.fl with ⟨⟨a, b, rfl⟩, -⟩ | hsame
  · exact ⟨a, b, hi⟩
  · exact absurd (hg.trans hsame) hne

/-- Settles O27. -/
theorem onlyPrnAppendsToOut : Obligations.OnlyPrnAppendsToOut := by
  intro s t h hne
  obtain ⟨i, c, hi, hc, hg⟩ :=
    completed_of_changed State.out (fun _ => rfl) (fun _ => rfl) h hne
  rcases hc.out with ⟨r, rfl, hout⟩ | hsame
  · exact ⟨r, hi, hg.trans hout⟩
  · exact absurd (hg.trans hsame) hne

/-- Settles O28: the one cell a PUSH or a CALL writes is the one at the decremented SP. -/
theorem onlyPushAndCallWriteMemory : Obligations.OnlyPushAndCallWriteMemory := by
  intro s t a h hne
  obtain ⟨i, c, hi, hc, hg⟩ :=
    completed_of_changed (fun u => u.mem.read a) (fun _ => rfl) (fun _ => rfl) h hne
  rcases hc.mem with ⟨r, v, hpc, -, hm⟩ | hsame
  · refine ⟨?_, r, by simpa only [hi, Except.ok.injEq] using hpc⟩
    by_contra ha
    exact hne (by rw [hg, hm, Memory.read_write_other s.mem v ha])
  · exact absurd (by rw [hg, hsame]) hne

/-! ### Before the first CMP -/

theorem NoCmpRuns.mono {j k : Nat} {s : State} (h : NoCmpRuns k s) (hjk : j ≤ k) : NoCmpRuns j s :=
  fun n u hn => h n u (by omega)

/-- A run in which no CMP runs leaves FL as it was (10_state.md R28). -/
theorem NoCmpRuns.fl_eq {k : Nat} {s : State} : ∀ {t : State},
    NoCmpRuns k s → StepsTo k s t → t.fl = s.fl := by
  induction k with
  | zero =>
    intro t _ h
    rw [(stepsTo_zero s t).mp h]
  | succ k ih =>
    intro t hno h
    obtain ⟨u, hu, hut⟩ := stepsTo_succ_last.mp h
    rw [← ih (hno.mono (Nat.le_succ k)) hu]
    by_contra hne
    obtain ⟨a, b, hcmp⟩ := onlyCmpWritesFl u t hut hne
    have hru : u.runState = .running := by
      by_contra hended
      exact hne (by rw [Host.Outcome.next.inj (hut.symm.trans (step_of_ended hended))])
    exact hno k u (Nat.lt_succ_self k) hu hru a b hcmp

section
variable (r : RegIdx) {s : State}

theorem exec_jeq_taken (h : s.flE = true) :
    exec (.jeq (regByte r)) s = .next (s.jumpTo (s.readReg r)) :=
  (execJeq_regByte r s).trans (by simp [h])

theorem exec_jeq_not_taken (h : s.flE = false) :
    exec (.jeq (regByte r)) s = .next (s.advance 2) :=
  (execJeq_regByte r s).trans (by simp [h])

theorem exec_jne_taken (h : s.flE = false) :
    exec (.jne (regByte r)) s = .next (s.jumpTo (s.readReg r)) :=
  (execJne_regByte r s).trans (by simp [h])

end

/-- Settles O57: FL keeps its reset value 0, whose bit E is clear. -/
theorem branchesBeforeTheFirstCmp : Obligations.BranchesBeforeTheFirstCmp := by
  intro cfg image k s t r hreset hrun hno
  obtain ⟨-, -, rfl⟩ := resetWith_next hreset
  have hfl : t.fl = 0 := hno.fl_eq hrun
  have hE : t.flE = false := by simp [State.flE, hfl]
  exact ⟨hfl, _, _, exec_jeq_not_taken r hE, rfl, exec_jne_taken r hE, zext9_toNat _⟩

/-! ### Reset -/

theorem State.initial_readReg (cfg : Config) (image : Memory) (r : RegIdx) :
    (State.initial cfg image).readReg r = if r = spIdx then trunc8 (cfg.memSize - 1) else 0 := by
  fin_cases r <;> rfl

/-- A number that fits a byte is the byte's value (10_state.md R44). -/
theorem trunc8_toNat {n : Nat} (h : n ≤ 255) : (trunc8 n).toNat = n := by
  simp only [BitVec.toNat_ofNat]
  omega

/-- An accepted image is read back, cell by cell (10_state.md R41). -/
theorem read_ofImage_accepted {cfg : Config} {image : List Nat} (h : imageAccepted cfg image) {i : Nat}
    (hi : i < image.length) :
    (Memory.read (Memory.ofImage 0 (image.map trunc8)) i).toNat = image.getD i 0 := by
  have hread := Memory.read_ofImage (image.map trunc8) 0 i
  rw [Nat.zero_add] at hread
  rw [hread, List.getD_eq_getElem _ _ (by simpa using hi), List.getElem_map,
    List.getD_eq_getElem _ _ hi, trunc8_toNat (h.2 _ (List.getElem_mem hi))]

theorem read_ofImage_beyond (image : List Nat) {i : Nat} (hi : image.length ≤ i) :
    Memory.read (Memory.ofImage 0 (image.map trunc8)) i = 0 := by
  have hread := Memory.read_ofImage (image.map trunc8) 0 i
  rw [Nat.zero_add] at hread
  rw [hread, List.getD_eq_default _ _ (by simpa using hi)]
  rfl

theorem initial_inv {cfg : Config} {image : List Nat} (hc : cfg.wf) (ha : imageAccepted cfg image) :
    (State.initial cfg (Memory.ofImage 0 (image.map trunc8))).Inv where
  cfg := hc
  memCanonical := Memory.ofImage_wf _
  memBelow := Memory.ofImage_below _ 0 _ (by simpa using ha.1)
  pcRange := .inl (Nat.zero_le _)
  fl := .inl rfl
  record := ⟨fun _ => ⟨rfl, rfl, rfl⟩, fun hf => by simp at hf⟩

/-- The Reset of the empty image under the defaults (10_state.md R44). -/
theorem resetWith_empty : resetWith Config.default [] = .next State.reset :=
  resetWith_accepted Config.default_wf ⟨Nat.zero_le _, by simp⟩

theorem reset_inv : State.reset.Inv :=
  initial_inv (image := []) Config.default_wf ⟨Nat.zero_le _, by simp⟩

/-- Settles O1. -/
theorem resetSetsEveryValue : Obligations.ResetSetsEveryValue := by
  intro cfg image hc ha
  refine ⟨_, resetWith_accepted hc ha, ?_, ?_, rfl, rfl, ?_, ?_, rfl, rfl, rfl, rfl, rfl, rfl, rfl⟩
  · intro r hr
    rw [State.initial_readReg, if_neg hr]
  · have := hc.2.1
    rw [State.initial_sp, trunc8_toNat (by omega)]
  · exact fun i hi => read_ofImage_accepted ha hi
  · exact fun i hi => read_ofImage_beyond image hi

theorem not_imageAccepted_iff {cfg : Config} {image : List Nat} :
    ¬ imageAccepted cfg image ↔ cfg.memSize < image.length ∨ ∃ b ∈ image, 255 < b := by
  simp only [imageAccepted, not_and_or, not_forall, Nat.not_le, exists_prop]

/-- Settles O2: the answer of a Reset is decided by `imageAccepted`. -/
theorem resetRefusesExactlyBadImages : Obligations.ResetRefusesExactlyBadImages := by
  intro cfg image hc
  rw [← not_imageAccepted_iff]
  by_cases ha : imageAccepted cfg image
  · rw [resetWith_accepted hc ha]
    exact ⟨⟨nofun, fun hn => absurd ha hn⟩, fun _ => ha, fun _ => ⟨_, rfl⟩⟩
  · rw [resetWith_imageRefused hc ha]
    exact ⟨⟨fun _ => ha, fun _ => rfl⟩, nofun, fun h => absurd h ha⟩

/-- Settles O3. -/
theorem resetStatesAreWellFormed : Obligations.ResetStatesAreWellFormed := by
  refine ⟨reset_inv, resetWith_empty, fun cfg image s h => ?_⟩
  obtain ⟨hc, ha, rfl⟩ := resetWith_next h
  exact initial_inv hc ha

/-! ### Debug read and Result -/

theorem State.debugCell_absent {s : State} {a : Nat} (h : s.cfg.memSize ≤ a) :
    s.debugCell a = none :=
  if_neg (by omega)

theorem State.debugCell_present {s : State} {a : Nat} (h : a < s.cfg.memSize) :
    s.debugCell a = some (s.mem.read a) :=
  if_pos h

/-- Settles O6. -/
theorem debugReadShowsCells : Obligations.DebugReadShowsCells :=
  fun _ _ => ⟨State.debugCell_absent, State.debugCell_present, rfl, rfl, rfl⟩

/-- Settles O7, by the three values of RUN_STATE. -/
theorem resultOfAnEndedRun : Obligations.ResultOfAnEndedRun := by
  intro s
  refine ⟨fun h => ?_, fun h => ⟨?_, rfl⟩, fun h => ⟨?_, rfl⟩⟩ <;> simp [State.result, h]

end Sys2Proof.Machine
end

section
/-! PROOFS. 10_state.md R23: an instruction reads and writes only the registers of its table row. -/

namespace Sys2Proof.Machine

/-! ### Register bytes of an instruction -/

/-- The first operand byte of 8 or more, if there is one (30_encoding.md R83). -/
def Instr.firstBad (i : Instr) : Option Byte :=
  i.regBytes.find? fun x => decide (8 ≤ x.toNat)

theorem find_bad_one {a r : Byte} (h : [a].find? (fun x => decide (8 ≤ x.toNat)) = some r) :
    a = r ∧ 8 ≤ r.toNat := by
  obtain rfl : r = a := by simpa using List.mem_of_find?_eq_some h
  exact ⟨rfl, by simpa using List.find?_some h⟩

theorem aluRR_firstBad (op : AluOp) {a b r : Byte}
    (h : [a, b].find? (fun x => decide (8 ≤ x.toNat)) = some r) (s : State) :
    aluRR op a b s = .next (s.enterFault ⟨.regRange, BitVec.ofNat 9 r.toNat⟩) := by
  rcases regByte_cases a with ⟨ra, rfl⟩ | ha
  · rw [List.find?_cons_of_neg (by simpa using regByte_lt ra)] at h
    obtain ⟨rfl, hb⟩ := find_bad_one h
    simp [aluRR, regOperand_bad hb]
  · rw [List.find?_cons_of_pos (by simpa using ha)] at h
    obtain rfl := Option.some.inj h
    simp [aluRR, regOperand_bad ha]

/-- An instruction with a bad register byte takes the same fault from every state. -/
theorem exec_firstBad {i : Instr} {r : Byte} (h : Instr.firstBad i = some r) (s : State) :
    exec i s = .next (s.enterFault ⟨.regRange, BitVec.ofNat 9 r.toNat⟩) := by
  cases i with
  | hlt => cases h
  | ret => cases h
  | add a b => exact aluRR_firstBad .add h s
  | mul a b => exact aluRR_firstBad .mul h s
  | cmp a b => exact aluRR_firstBad .cmp h s
  | and a b => exact aluRR_firstBad .and h s
  | or a b => exact aluRR_firstBad .or h s
  | xor a b => exact aluRR_firstBad .xor h s
  | shl a b => exact aluRR_firstBad .shl h s
  | shr a b => exact aluRR_firstBad .shr h s
  | ldi a v => obtain ⟨rfl, ha⟩ := find_bad_one h; simp [exec, execLdi, regOperand_bad ha]
  | prn a => obtain ⟨rfl, ha⟩ := find_bad_one h; simp [exec, execPrn, regOperand_bad ha]
  | not a => obtain ⟨rfl, ha⟩ := find_bad_one h; simp [exec, execNot, regOperand_bad ha]
  | push a => obtain ⟨rfl, ha⟩ := find_bad_one h; simp [exec, execPush, regOperand_bad ha]
  | pop a => obtain ⟨rfl, ha⟩ := find_bad_one h; simp [exec, execPop, regOperand_bad ha]
  | call a => obtain ⟨rfl, ha⟩ := find_bad_one h; simp [exec, execCall, regOperand_bad ha]
  | jmp a => obtain ⟨rfl, ha⟩ := find_bad_one h; simp [exec, execJmp, regOperand_bad ha]
  | jeq a => obtain ⟨rfl, ha⟩ := find_bad_one h; simp [exec, execJeq, regOperand_bad ha]
  | jne a => obtain ⟨rfl, ha⟩ := find_bad_one h; simp [exec, execJne, regOperand_bad ha]

/-- In an instruction without a bad byte, every register byte is the byte of a register. -/
theorem Instr.regByte_of_firstBad_none {i : Instr} (h : Instr.firstBad i = none) {a : Byte}
    (ha : a ∈ i.regBytes) : ∃ r : RegIdx, a = regByte r :=
  (regByte_cases a).resolve_right (by simpa using List.find?_eq_none.mp h a ha)

theorem Instr.firstBad_eq_none {i : Instr} : Instr.firstBad i = none ↔ i.wellFormed = true := by
  simp [Instr.firstBad, Instr.wellFormed]

/-! ### Two runs that differ in the registers -/

/-- `s` with another register file. -/
abbrev State.withRegs (s : State) (regs : Vector Byte 8) : State := { s with regs := regs }

theorem State.withRegs_flE (s : State) (regs : Vector Byte 8) : (s.withRegs regs).flE = s.flE := rfl

/-- What R23 says of `i` run from `s` and from `s` with the registers `regs`: both answer, neither run
changes a register outside the "writes" column, the answers agree in all but the registers, and where the
run completes they agree in the written registers too. -/
def EndsAlike (i : Instr) (s : State) (regs : Vector Byte 8) : Prop :=
  ∃ t u, exec i s = .next t ∧ exec i (s.withRegs regs) = .next u ∧ u = t.withRegs u.regs ∧
    (∀ q : RegIdx, q.val ∉ regWrites i → t.readReg q = s.readReg q ∧ u.readReg q = regs[q]) ∧
    (s.runState ≠ .faulted → t.runState ≠ .faulted →
      ∀ q : RegIdx, q.val ∈ regWrites i → u.readReg q = t.readReg q)

section
variable {i : Instr} {s t u : State} {regs : Vector Byte 8}

/-- Two runs that take the same fault end alike. -/
theorem endsAlike_of_fault {f : Raised} (ht : exec i s = .next (s.enterFault f))
    (hu : exec i (s.withRegs regs) = .next ((s.withRegs regs).enterFault f)) : EndsAlike i s regs :=
  ⟨_, _, ht, hu, rfl, fun _ _ => ⟨rfl, rfl⟩, fun _ hne => absurd rfl hne⟩

/-- Two runs that write no register end alike where they agree in the rest. -/
theorem endsAlike_of_no_write (ht : exec i s = .next t) (hu : exec i (s.withRegs regs) = .next u)
    (hrest : u = t.withRegs u.regs) (hw : regWrites i = []) (htr : t.regs = s.regs)
    (hur : u.regs = regs) : EndsAlike i s regs := by
  refine ⟨t, u, ht, hu, hrest, fun q _ => ?_, fun _ _ q hq => ?_⟩
  · simp only [State.readReg, htr, hur, and_self]
  · simp [hw] at hq

/-- Two runs that write the same value to one register end alike where they agree in the rest. -/
theorem endsAlike_of_write (r : RegIdx) (v : Byte) (ht : exec i s = .next t)
    (hu : exec i (s.withRegs regs) = .next u) (hrest : u = t.withRegs u.regs)
    (hw : regWrites i = [r.val]) (htr : t.regs = (s.writeReg r v).regs)
    (hur : u.regs = ((s.withRegs regs).writeReg r v).regs) : EndsAlike i s regs := by
  have htq : ∀ q, t.readReg q = if q = r then v else s.readReg q := fun q => by
    rw [← State.writeReg_readReg, State.readReg, htr, State.readReg]
  have huq : ∀ q, u.readReg q = if q = r then v else regs[q] := fun q => by
    rw [State.readReg, hur]
    exact State.writeReg_readReg (s.withRegs regs) r q v
  have hmem : ∀ q : RegIdx, q.val ∈ regWrites i ↔ q = r := fun q => by
    rw [hw, List.mem_singleton, Fin.ext_iff]
  refine ⟨t, u, ht, hu, hrest, fun q hq => ?_, fun _ _ q hq => ?_⟩ <;> rw [hmem] at hq <;>
    simp [htq, huq, hq]

end

/-- The value an ALU operation leaves in its first register; CMP leaves it as it was (41_alu.md R113). -/
def aluResult : AluOp → Byte → Byte → Byte
  | .add, va, vb => aluAdd va vb
  | .mul, va, vb => aluMul va vb
  | .cmp, va, _ => va
  | .and, va, vb => aluAnd va vb
  | .or, va, vb => aluOr va vb
  | .xor, va, vb => aluXor va vb
  | .not, va, _ => aluNot va
  | .shl, va, vb => aluShl va vb
  | .shr, va, vb => aluShr va vb

theorem alu_eq_writeReg {op : AluOp} (h : op ≠ .cmp) (ra rb : RegIdx) (s : State) :
    alu op ra rb s = s.writeReg ra (aluResult op (s.readReg ra) (s.readReg rb)) := by
  cases op with
  | cmp => exact absurd rfl h
  | add | mul | and | or | xor | not | shl | shr => rfl

section
variable (s : State) (regs : Vector Byte 8)

/-- An instruction that is an ALU operation on registers with the same values in both runs. -/
theorem endsAlike_alu {i : Instr} {op : AluOp} (hop : op ≠ .cmp) (ra rb : RegIdx) (w : Nat)
    (hexec : ∀ s, exec i s = .next ((alu op ra rb s).advance w)) (hw : regWrites i = [ra.val])
    (ha : (s.withRegs regs).readReg ra = s.readReg ra)
    (hb : (s.withRegs regs).readReg rb = s.readReg rb) : EndsAlike i s regs := by
  refine endsAlike_of_write ra (aluResult op (s.readReg ra) (s.readReg rb)) (hexec s) (hexec _) ?_ hw
    ?_ ?_ <;> simp only [alu_eq_writeReg hop, ha, hb]
  all_goals rfl

variable (r : RegIdx)

theorem endsAlike_prn (hr : (s.withRegs regs).readReg r = s.readReg r) :
    EndsAlike (.prn (regByte r)) s regs :=
  endsAlike_of_no_write (execPrn_regByte r s) (execPrn_regByte r _) (by rw [hr]; rfl) rfl rfl rfl

theorem endsAlike_cmp (ra rb : RegIdx) (ha : (s.withRegs regs).readReg ra = s.readReg ra)
    (hb : (s.withRegs regs).readReg rb = s.readReg rb) :
    EndsAlike (.cmp (regByte ra) (regByte rb)) s regs :=
  endsAlike_of_no_write (aluRR_regByte .cmp ra rb s) (aluRR_regByte .cmp ra rb _)
    (by simp only [alu, ha, hb]; rfl) rfl rfl rfl

theorem endsAlike_jmp (hr : (s.withRegs regs).readReg r = s.readReg r) :
    EndsAlike (.jmp (regByte r)) s regs :=
  endsAlike_of_no_write (execJmp_regByte r s) (execJmp_regByte r _) (by rw [hr]; rfl) rfl rfl rfl

theorem endsAlike_jeq (hr : (s.withRegs regs).readReg r = s.readReg r) :
    EndsAlike (.jeq (regByte r)) s regs := by
  refine endsAlike_of_no_write (execJeq_regByte r s) (execJeq_regByte r _) ?_ rfl ?_ ?_ <;>
    rw [State.withRegs_flE] <;> cases s.flE
  · rfl
  · exact congrArg (s.withRegs regs).jumpTo hr
  all_goals rfl

theorem endsAlike_jne (hr : (s.withRegs regs).readReg r = s.readReg r) :
    EndsAlike (.jne (regByte r)) s regs := by
  refine endsAlike_of_no_write (execJne_regByte r s) (execJne_regByte r _) ?_ rfl ?_ ?_ <;>
    rw [State.withRegs_flE] <;> cases s.flE
  · exact congrArg (s.withRegs regs).jumpTo hr
  all_goals rfl

section
variable {s regs} (hsp : (s.withRegs regs).sp = s.sp)
include hsp

theorem withRegs_decSp : (s.withRegs regs).decSp = s.decSp := by
  simp only [State.decSp, hsp]

theorem withRegs_incSp : (s.withRegs regs).incSp = s.incSp := by
  simp only [State.incSp, hsp]

theorem endsAlike_push (hr : (s.withRegs regs).readReg r = s.readReg r) :
    EndsAlike (.push (regByte r)) s regs := by
  have hd := withRegs_decSp hsp
  by_cases hm : s.decSp.toNat < s.cfg.memSize
  · refine endsAlike_of_write spIdx s.decSp (execPush_regByte r s hm)
      (execPush_regByte r _ (by rw [hd]; exact hm)) ?_ rfl rfl (by rw [← hd]; rfl)
    simp only [hd, State.writeSp_readReg, hr]
    rfl
  · exact endsAlike_of_fault (execPush_addrRange r s hm)
      (hd ▸ execPush_addrRange r (s.withRegs regs) (by rw [hd]; exact hm))

theorem endsAlike_call (hr : (s.withRegs regs).readReg r = s.readReg r) :
    EndsAlike (.call (regByte r)) s regs := by
  have hd := withRegs_decSp hsp
  by_cases hp : s.pc.toNat + 2 ≤ 255
  · by_cases hm : s.decSp.toNat < s.cfg.memSize
    · refine endsAlike_of_write spIdx s.decSp (execCall_regByte r s hp hm)
        (execCall_regByte r _ hp (by rw [hd]; exact hm)) ?_ rfl rfl (by rw [← hd]; rfl)
      simp only [hd, State.writeSp_readReg, hr]
      rfl
    · exact endsAlike_of_fault (execCall_addrRange r s hp hm)
        (hd ▸ execCall_addrRange r (s.withRegs regs) hp (by rw [hd]; exact hm))
  · have hp' : 255 < s.pc.toNat + 2 := by omega
    exact endsAlike_of_fault (execCall_retAddrRange r s hp')
      (execCall_retAddrRange r (s.withRegs regs) hp')

theorem endsAlike_ret : EndsAlike .ret s regs := by
  by_cases hm : s.sp.toNat < s.cfg.memSize
  · refine endsAlike_of_write spIdx s.incSp (execRet_ok s hm)
      (execRet_ok _ (by rw [hsp]; exact hm)) ?_ rfl rfl (by rw [← withRegs_incSp hsp]; rfl)
    rw [hsp]
    rfl
  · exact endsAlike_of_fault (execRet_addrRange s hm)
      (hsp ▸ execRet_addrRange (s.withRegs regs) (by rw [hsp]; exact hm))

theorem endsAlike_pop : EndsAlike (.pop (regByte r)) s regs := by
  by_cases hm : s.sp.toNat < s.cfg.memSize
  · have hi : ∀ v, ((s.withRegs regs).writeReg r v).incSp = (s.writeReg r v).incSp := fun v => by
      simp only [State.incSp, State.sp_eq, State.writeReg_readReg, State.writeReg_cfg]
      rw [← State.sp_eq, hsp, State.sp_eq]
    have hmem : ∀ q : RegIdx, q.val ∈ regWrites (.pop (regByte r)) ↔ q = r ∨ q = spIdx := fun q => by
      simp only [regWrites, regByte_toNat, List.mem_cons, List.not_mem_nil, or_false, Fin.ext_iff]
      rfl
    refine ⟨_, _, execPop_regByte r s hm, execPop_regByte r _ (by rw [hsp]; exact hm), ?_,
      fun q hq => ?_, fun _ _ q hq => ?_⟩
    · rw [hsp]
      rfl
    · rw [hmem, not_or] at hq
      simp only [State.advance_readReg, State.writeSp_readReg, State.writeReg_readReg, hq, if_false,
        true_and]
      rfl
    · rw [hmem] at hq
      simp only [State.advance_readReg, State.writeSp_readReg, State.writeReg_readReg, hsp, hi]
      rcases hq with rfl | rfl <;> simp
  · exact endsAlike_of_fault (execPop_addrRange r s hm)
      (hsp ▸ execPop_addrRange r (s.withRegs regs) (by rw [hsp]; exact hm))

end

end

/-- Every instruction whose register bytes name registers ends alike from two states that agree in its
"reads" column. -/
theorem endsAlike_of_wellFormed {i : Instr} {s : State} {regs : Vector Byte 8}
    (hwf : ∀ a ∈ i.regBytes, ∃ r : RegIdx, a = regByte r)
    (hreads : ∀ q : RegIdx, q.val ∈ regReads i → (s.withRegs regs).readReg q = s.readReg q) :
    EndsAlike i s regs := by
  have one : ∀ {a : Byte}, i.regBytes = [a] → ∃ r : RegIdx, a = regByte r := fun h =>
    hwf _ (by simp [h])
  have two : ∀ {a b : Byte}, i.regBytes = [a, b] →
      (∃ r : RegIdx, a = regByte r) ∧ ∃ r : RegIdx, b = regByte r := fun h =>
    ⟨hwf _ (by simp [h]), hwf _ (by simp [h])⟩
  have reads : ∀ r : RegIdx, (regByte r).toNat ∈ regReads i →
      (s.withRegs regs).readReg r = s.readReg r := fun r h => hreads r (by rwa [regByte_toNat] at h)
  have alu : ∀ {op : AluOp} {a b : Byte}, op ≠ .cmp → i.regBytes = [a, b] →
      (∀ s, exec i s = aluRR op a b s) → regWrites i = [a.toNat] →
      regReads i = [a.toNat, b.toNat] → EndsAlike i s regs := fun hop hb hexec hw hr => by
    obtain ⟨⟨ra, rfl⟩, rb, rfl⟩ := two hb
    exact endsAlike_alu s regs hop ra rb 3 (fun s => (hexec s).trans (aluRR_regByte _ ra rb s))
      (by rw [hw, regByte_toNat]) (reads ra (by simp [hr])) (reads rb (by simp [hr]))
  cases i with
  | hlt => exact endsAlike_of_no_write rfl rfl rfl rfl rfl rfl
  | ldi a v =>
    obtain ⟨r, rfl⟩ := one rfl
    exact endsAlike_of_write r v (execLdi_regByte r s v) (execLdi_regByte r _ v) rfl
      (by rw [regWrites, regByte_toNat]) rfl rfl
  | prn a => obtain ⟨r, rfl⟩ := one rfl; exact endsAlike_prn s regs r (reads r (by simp [regReads]))
  | add a b => exact alu (by simp) rfl (fun _ => rfl) rfl rfl
  | mul a b => exact alu (by simp) rfl (fun _ => rfl) rfl rfl
  | cmp a b =>
    obtain ⟨⟨ra, rfl⟩, rb, rfl⟩ := two rfl
    exact endsAlike_cmp s regs ra rb (reads ra (by simp [regReads])) (reads rb (by simp [regReads]))
  | and a b => exact alu (by simp) rfl (fun _ => rfl) rfl rfl
  | or a b => exact alu (by simp) rfl (fun _ => rfl) rfl rfl
  | xor a b => exact alu (by simp) rfl (fun _ => rfl) rfl rfl
  | not a =>
    obtain ⟨r, rfl⟩ := one rfl
    have hr := reads r (by simp [regReads])
    exact endsAlike_alu s regs (op := .not) (by simp) r r 2 (execNot_regByte r)
      (by rw [regWrites, regByte_toNat]) hr hr
  | shl a b => exact alu (by simp) rfl (fun _ => rfl) rfl rfl
  | shr a b => exact alu (by simp) rfl (fun _ => rfl) rfl rfl
  | push a =>
    obtain ⟨r, rfl⟩ := one rfl
    exact endsAlike_push r (hreads spIdx (by simp [regReads, spIdx])) (reads r (by simp [regReads]))
  | pop a => obtain ⟨r, rfl⟩ := one rfl; exact endsAlike_pop r (hreads spIdx (by simp [regReads, spIdx]))
  | call a =>
    obtain ⟨r, rfl⟩ := one rfl
    exact endsAlike_call r (hreads spIdx (by simp [regReads, spIdx])) (reads r (by simp [regReads]))
  | ret => exact endsAlike_ret (hreads spIdx (by simp [regReads, spIdx]))
  | jmp a => obtain ⟨r, rfl⟩ := one rfl; exact endsAlike_jmp s regs r (reads r (by simp [regReads]))
  | jeq a => obtain ⟨r, rfl⟩ := one rfl; exact endsAlike_jeq s regs r (reads r (by simp [regReads]))
  | jne a => obtain ⟨r, rfl⟩ := one rfl; exact endsAlike_jne s regs r (reads r (by simp [regReads]))

/-- Settles O29: a bad register byte faults alike in both runs; otherwise instruction by instruction. -/
theorem registerTableBoundsReadsAndWrites : Obligations.RegisterTableBoundsReadsAndWrites := by
  intro i s regs hreads
  have halike : EndsAlike i s regs := by
    cases hbad : Instr.firstBad i with
    | some r => exact endsAlike_of_fault (exec_firstBad hbad s) (exec_firstBad hbad _)
    | none => exact endsAlike_of_wellFormed (fun _ => Instr.regByte_of_firstBad_none hbad) hreads
  obtain ⟨t, u, ht, hu, hrest, hother, hsame⟩ := halike
  exact ⟨t, u, ht, hu, fun q hq => (hother q hq).1, fun q hq => (hother q hq).2, hrest, hsame⟩

end Sys2Proof.Machine
end

section
/-! PROOFS. 10_state.md R23, the other half: every register an instruction lists is used by it. -/

namespace Sys2Proof.Machine

/-! ### What it is to use a register -/

/-- Some run of `i` changes the register `q`. -/
def ChangesReg (i : Instr) (q : RegIdx) : Prop :=
  ∃ s t, s.Inv ∧ exec i s = .next t ∧ t.runState ≠ .faulted ∧ t.readReg q ≠ s.readReg q

/-- Two runs of `i` that differ in the register `q` alone end differently, in something besides the
registers or in a register that `i` writes. -/
def DependsOnReg (i : Instr) (q : RegIdx) : Prop :=
  ∃ s v t u, s.Inv ∧ exec i s = .next t ∧ t.runState ≠ .faulted ∧
    exec i (s.writeReg q v) = .next u ∧ u.runState ≠ .faulted ∧
    (u ≠ t.withRegs u.regs ∨ ∃ w : RegIdx, w.val ∈ regWrites i ∧ u.readReg w ≠ t.readReg w)

/-- Every register of the two columns of `i` is used. -/
def UsesListed (i : Instr) : Prop :=
  (∀ q : RegIdx, q.val ∈ regWrites i → ChangesReg i q) ∧
  (∀ q : RegIdx, q.val ∈ regReads i → DependsOnReg i q)

theorem val_mem_map {q : RegIdx} {rs : List RegIdx} : q.val ∈ rs.map Fin.val ↔ q ∈ rs :=
  List.mem_map_of_injective Fin.val_injective

theorem usesListed_of {i : Instr} (ws rs : List RegIdx) (hw : regWrites i = ws.map Fin.val)
    (hr : regReads i = rs.map Fin.val) (hws : ∀ q ∈ ws, ChangesReg i q)
    (hrs : ∀ q ∈ rs, DependsOnReg i q) : UsesListed i :=
  ⟨fun q hq => hws q (val_mem_map.mp (hw ▸ hq)), fun q hq => hrs q (val_mem_map.mp (hr ▸ hq))⟩

section
variable {i : Instr} {s t u : State} {q : RegIdx} {v : Byte} (hs : s.Inv)
  (ht : exec i s = .next t) (hrt : t.runState = .running)
  (hu : exec i (s.writeReg q v) = .next u) (hru : u.runState = .running)
include hs ht hrt

theorem changesReg_of (hne : t.readReg q ≠ s.readReg q) : ChangesReg i q :=
  ⟨s, t, hs, ht, by simp [hrt], hne⟩

include hu hru

theorem dependsOnReg_of_written (w : RegIdx) (hw : w.val ∈ regWrites i)
    (hne : u.readReg w ≠ t.readReg w) : DependsOnReg i q :=
  ⟨s, v, t, u, hs, ht, by simp [hrt], hu, by simp [hru], .inr ⟨w, hw, hne⟩⟩

/-- A piece of state besides the registers that the two runs leave different. -/
theorem dependsOnReg_of_field {α : Type} (g : State → α)
    (hg : ∀ (s : State) (regs : Vector Byte 8), g (s.withRegs regs) = g s) (hne : g u ≠ g t) :
    DependsOnReg i q :=
  ⟨s, v, t, u, hs, ht, by simp [hrt], hu, by simp [hru],
    .inl fun h => hne ((congrArg g h).trans (hg t u.regs))⟩

end

/-! ### The states the instructions are run from -/

theorem State.Inv.writeReg {s : State} (h : s.Inv) (r : RegIdx) (v : Byte) : (s.writeReg r v).Inv :=
  ⟨h.cfg, h.memCanonical, h.memBelow, h.pcRange, h.fl, h.record⟩

theorem State.Inv.decSp_lt {s : State} (h : s.Inv) : s.decSp.toNat < s.cfg.memSize :=
  State.decSp_lt h.cfg

theorem reset_readReg (r : RegIdx) : State.reset.readReg r = if r = spIdx then 255 else 0 :=
  State.initial_readReg Config.default [] r

theorem reset_readReg_ne_one (r : RegIdx) : State.reset.readReg r ≠ 1 := by
  rw [reset_readReg]
  split <;> decide

theorem reset_decSp : State.reset.decSp = 254 := by decide

theorem reset_writeReg_decSp {r : RegIdx} (h : r ≠ spIdx) (v : Byte) :
    (State.reset.writeReg r v).decSp = 254 := by
  rw [← reset_decSp]
  simp [State.decSp, State.sp_eq, h.symm]

/-- 5 in the first register, 2 in the second. -/
def aluProbe (ra rb : RegIdx) : State := (State.reset.writeReg ra 5).writeReg rb 2

theorem aluProbe_inv (ra rb : RegIdx) : (aluProbe ra rb).Inv := (reset_inv.writeReg ra 5).writeReg rb 2

theorem aluProbe_fst {ra rb : RegIdx} (h : ra ≠ rb) : (aluProbe ra rb).readReg ra = 5 := by
  simp [aluProbe, h]

theorem aluProbe_snd (ra rb : RegIdx) : (aluProbe ra rb).readReg rb = 2 := by
  simp [aluProbe]

/-- Reset with the byte 1 in the cell at SP. -/
def popProbe : State := { State.reset with mem := [(255, 1)] }

theorem popProbe_inv : popProbe.Inv := by constructor <;> decide

/-- Reset with FL.E set. -/
def equalProbe : State := { State.reset with fl := flagE }

theorem equalProbe_inv : equalProbe.Inv := by constructor <;> decide

theorem equalProbe_flE : equalProbe.flE = true := by decide

theorem reset_flE : State.reset.flE = false := by decide

/-! ### ALU instructions -/

/-- From 5 and 2 every operation changes its first operand, and it gives another result where either
operand takes the value of the other. -/
theorem aluResult_uses {op : AluOp} (hcmp : op ≠ .cmp) (hnot : op ≠ .not) :
    aluResult op 5 2 ≠ 5 ∧ aluResult op 2 2 ≠ aluResult op 5 2 ∧
      aluResult op 5 5 ≠ aluResult op 5 2 := by
  cases op with
  | cmp => exact absurd rfl hcmp
  | not => exact absurd rfl hnot
  | add | mul | and | or | xor | shl | shr => decide

theorem alu_readReg_fst (op : AluOp) (ra rb : RegIdx) (s : State) :
    (alu op ra rb s).readReg ra = aluResult op (s.readReg ra) (s.readReg rb) := by
  by_cases h : op = .cmp
  · subst h
    rfl
  · simp [alu_eq_writeReg h]

theorem alu_advance_runState (op : AluOp) (ra rb : RegIdx) (s : State) (w : Nat) :
    ((alu op ra rb s).advance w).runState = s.runState :=
  (alu_frame op ra rb s).runState

theorem usesListed_aluRR {i : Instr} {op : AluOp} {ra rb : RegIdx} (hcmp : op ≠ .cmp)
    (hnot : op ≠ .not) (hne : ra ≠ rb) (hexec : ∀ s, exec i s = aluRR op (regByte ra) (regByte rb) s)
    (hw : regWrites i = [(regByte ra).toNat])
    (hr : regReads i = [(regByte ra).toNat, (regByte rb).toNat]) : UsesListed i := by
  obtain ⟨hself, hfst, hsnd⟩ := aluResult_uses hcmp hnot
  have hrun := fun s => (hexec s).trans (aluRR_regByte op ra rb s)
  have hstate := fun s => alu_advance_runState op ra rb s 3
  have hs := aluProbe_inv ra rb
  have hmem : ra.val ∈ regWrites i := by simp [hw, regByte_toNat]
  have hva := aluProbe_fst hne
  have hvb := aluProbe_snd ra rb
  have hfst' : DependsOnReg i ra :=
    dependsOnReg_of_written (v := 2) hs (hrun _) (hstate _) (hrun _) (hstate _) ra hmem
      (by simpa [alu_readReg_fst, hva, hvb, hne.symm] using hfst)
  have hsnd' : DependsOnReg i rb :=
    dependsOnReg_of_written (v := 5) hs (hrun _) (hstate _) (hrun _) (hstate _) ra hmem
      (by simpa [alu_readReg_fst, hva, hvb, hne] using hsnd)
  have hself' : ChangesReg i ra :=
    changesReg_of hs (hrun _) (hstate _) (by simpa [alu_readReg_fst, hva, hvb] using hself)
  exact usesListed_of [ra] [ra, rb] (by simp [hw, regByte_toNat]) (by simp [hr, regByte_toNat])
    (List.forall_mem_singleton.mpr hself')
    (List.forall_mem_cons.mpr ⟨hfst', List.forall_mem_singleton.mpr hsnd'⟩)

/-- CMP gives G from 5 and 2, and E where either operand takes the value of the other. -/
theorem usesListed_cmp {ra rb : RegIdx} (hne : ra ≠ rb) :
    UsesListed (.cmp (regByte ra) (regByte rb)) := by
  have hs := aluProbe_inv ra rb
  have hrun := fun s => aluRR_regByte .cmp ra rb s
  have hva := aluProbe_fst hne
  have hvb := aluProbe_snd ra rb
  have hfl : ∀ s : State, s.cfg = Config.default →
      ((alu .cmp ra rb s).advance 3).fl = cmpFlags .corrected (s.readReg ra) (s.readReg rb) 0 false := by
    intro s hcfg
    simp [alu, hcfg, cmpFlags, Config.default]
  have hG := hfl (aluProbe ra rb) rfl
  rw [hva, hvb] at hG
  have hfst : DependsOnReg (.cmp (regByte ra) (regByte rb)) ra := by
    refine dependsOnReg_of_field (v := 2) hs (hrun _) rfl (hrun _) rfl State.fl (fun _ _ => rfl) ?_
    rw [hG, hfl _ rfl]
    simp only [State.writeReg_readReg, hvb, hne.symm, if_true, if_false]
    decide
  have hsnd : DependsOnReg (.cmp (regByte ra) (regByte rb)) rb := by
    refine dependsOnReg_of_field (v := 5) hs (hrun _) rfl (hrun _) rfl State.fl (fun _ _ => rfl) ?_
    rw [hG, hfl _ rfl]
    simp only [State.writeReg_readReg, hva, hne, if_true, if_false]
    decide
  exact usesListed_of [] [ra, rb] rfl (by simp [regReads, regByte_toNat]) (List.forall_mem_nil _)
    (List.forall_mem_cons.mpr ⟨hfst, List.forall_mem_singleton.mpr hsnd⟩)

/-! ### Instructions that write no register, from the Reset state -/

theorem zext9_ne {v w : Byte} (h : v ≠ w) : zext9 v ≠ zext9 w := fun he =>
  h (BitVec.eq_of_toNat_eq (by rw [← zext9_toNat, he, zext9_toNat]))

/-- An instruction that reads one register and writes none. -/
theorem usesListed_of_one_read {i : Instr} {r : RegIdx} (hw : regWrites i = [])
    (hr : regReads i = [(regByte r).toNat]) (h : DependsOnReg i r) : UsesListed i :=
  usesListed_of [] [r] hw (by simp [hr, regByte_toNat]) (List.forall_mem_nil _)
    (List.forall_mem_singleton.mpr h)

section
variable (r : RegIdx)

theorem usesListed_prn : UsesListed (.prn (regByte r)) := by
  refine usesListed_of_one_read rfl rfl (dependsOnReg_of_field (v := 1) reset_inv
    (execPrn_regByte r _) rfl (execPrn_regByte r _) rfl State.out (fun _ _ => rfl) ?_)
  simpa using (reset_readReg_ne_one r).symm

theorem usesListed_jmp : UsesListed (.jmp (regByte r)) := by
  refine usesListed_of_one_read rfl rfl (dependsOnReg_of_field (v := 1) reset_inv
    (execJmp_regByte r _) rfl (execJmp_regByte r _) rfl State.pc (fun _ _ => rfl) ?_)
  simpa using zext9_ne (reset_readReg_ne_one r).symm

theorem usesListed_jeq : UsesListed (.jeq (regByte r)) := by
  refine usesListed_of_one_read rfl rfl (dependsOnReg_of_field (v := 1) equalProbe_inv
    (exec_jeq_taken r equalProbe_flE) rfl (exec_jeq_taken r equalProbe_flE) rfl State.pc
    (fun _ _ => rfl) ?_)
  have hne : 1 ≠ equalProbe.readReg r := (reset_readReg_ne_one r).symm
  simpa using zext9_ne hne

theorem usesListed_jne : UsesListed (.jne (regByte r)) := by
  refine usesListed_of_one_read rfl rfl (dependsOnReg_of_field (v := 1) reset_inv
    (exec_jne_taken r reset_flE) rfl (exec_jne_taken r reset_flE) rfl State.pc (fun _ _ => rfl) ?_)
  simpa using zext9_ne (reset_readReg_ne_one r).symm

/-! ### Instructions that write a register -/

theorem usesListed_ldi (v : Byte) : UsesListed (.ldi (regByte r) v) := by
  refine usesListed_of [r] [] (by simp [regWrites, regByte_toNat]) rfl
    (List.forall_mem_singleton.mpr ?_) (List.forall_mem_nil _)
  exact changesReg_of (reset_inv.writeReg r (v + 1)) (execLdi_regByte r _ v) rfl (by simp)

theorem usesListed_not : UsesListed (.not (regByte r)) := by
  have hs := reset_inv.writeReg r 5
  have hw : r.val ∈ regWrites (.not (regByte r)) := by simp [regWrites, regByte_toNat]
  refine usesListed_of [r] [r] (by simp [regWrites, regByte_toNat])
    (by simp [regReads, regByte_toNat]) (List.forall_mem_singleton.mpr ?_)
    (List.forall_mem_singleton.mpr ?_)
  · refine changesReg_of hs (execNot_regByte r _) rfl ?_
    simp only [State.advance_readReg, alu_readReg_fst, State.writeReg_readReg, if_true]
    decide
  · refine dependsOnReg_of_written (v := 2) hs (execNot_regByte r _) rfl (execNot_regByte r _) rfl
      r hw ?_
    simp only [State.advance_readReg, alu_readReg_fst, State.writeReg_readReg, if_true]
    decide

/-- The register SP, where an instruction leaves another SP from SP = 255 than it found, and than it
leaves from SP = 0. -/
theorem usesSp {i : Instr} {s t u : State} (hs : s.Inv) (hw : spIdx.val ∈ regWrites i)
    (ht : exec i s = .next t) (hrt : t.runState = .running)
    (hu : exec i (s.writeSp 0) = .next u) (hru : u.runState = .running)
    (hne : t.sp ≠ s.sp) (hdiff : u.sp ≠ t.sp) : ChangesReg i spIdx ∧ DependsOnReg i spIdx :=
  ⟨changesReg_of hs ht hrt hne, dependsOnReg_of_written hs ht hrt hu hru spIdx hw hdiff⟩

theorem usesListed_ret : UsesListed .ret := by
  obtain ⟨hc, hd⟩ := usesSp (i := .ret) reset_inv (by simp [regWrites, spIdx])
    (execRet_ok _ (by decide)) rfl (execRet_ok _ (by decide)) rfl (by decide) (by decide)
  exact usesListed_of [spIdx] [spIdx] rfl rfl (List.forall_mem_singleton.mpr hc)
    (List.forall_mem_singleton.mpr hd)

/-- The SP that POP leaves from `popProbe` with SP = 255, and with SP = 0. -/
theorem popProbe_incSp : ∀ r : RegIdx, (popProbe.writeReg r 1).incSp ≠ 255 ∧
    ((popProbe.writeSp 0).writeReg r 0).incSp ≠ (popProbe.writeReg r 1).incSp := by decide

/-- The popped byte 1 shows in every register but SP, and SP is incremented. -/
theorem usesListed_pop : UsesListed (.pop (regByte r)) := by
  have hrun := execPop_regByte r popProbe (by decide)
  have hsp : ChangesReg (.pop (regByte r)) spIdx ∧ DependsOnReg (.pop (regByte r)) spIdx := by
    refine usesSp popProbe_inv (by simp [regWrites, spIdx]) hrun rfl
      (execPop_regByte r (popProbe.writeSp 0) (by decide)) rfl ?_ ?_ <;>
      simp only [State.advance_sp, State.writeSp_sp]
    · exact (popProbe_incSp r).1
    · exact (popProbe_incSp r).2
  have hr : ChangesReg (.pop (regByte r)) r := by
    by_cases hrsp : r = spIdx
    · exact hrsp ▸ hsp.1
    · refine changesReg_of popProbe_inv hrun rfl ?_
      simp only [State.advance_readReg, State.writeSp_readReg, State.writeReg_readReg, hrsp, if_true,
        if_false]
      exact (reset_readReg_ne_one r).symm
  exact usesListed_of [r, spIdx] [spIdx] (by simp [regWrites, regByte_toNat, spIdx]) rfl
    (List.forall_mem_cons.mpr ⟨hr, List.forall_mem_singleton.mpr hsp.1⟩)
    (List.forall_mem_singleton.mpr hsp.2)

/-- PUSH and CALL read their register too; where it is SP itself, SP is used already. -/
theorem usesListed_of_sp_and_read {i : Instr} (hw : regWrites i = [7])
    (hr : regReads i = [7, (regByte r).toNat]) (hsp : ChangesReg i spIdx ∧ DependsOnReg i spIdx)
    (h : r ≠ spIdx → DependsOnReg i r) : UsesListed i := by
  refine usesListed_of [spIdx] [spIdx, r] hw (by simp [hr, regByte_toNat, spIdx])
    (List.forall_mem_singleton.mpr hsp.1)
    (List.forall_mem_cons.mpr ⟨hsp.2, List.forall_mem_singleton.mpr ?_⟩)
  by_cases hrsp : r = spIdx
  · exact hrsp ▸ hsp.2
  · exact h hrsp

/-- SP shows in the decremented SP, another register in the byte stored. -/
theorem usesListed_push : UsesListed (.push (regByte r)) := by
  have hrun := execPush_regByte r State.reset reset_inv.decSp_lt
  refine usesListed_of_sp_and_read r rfl rfl (usesSp reset_inv (by simp [regWrites, spIdx]) hrun rfl
    (execPush_regByte r (State.reset.writeSp 0) (reset_inv.writeReg spIdx 0).decSp_lt) rfl ?_ ?_)
    fun hne => dependsOnReg_of_field (v := 1) reset_inv hrun rfl
      (execPush_regByte r _ (reset_inv.writeReg r 1).decSp_lt) rfl (fun s => s.mem.read 254)
      (fun _ _ => rfl) ?_
  · simp only [State.advance_sp, State.setCell_sp, State.writeSp_sp]
    decide
  · simp only [State.advance_sp, State.setCell_sp, State.writeSp_sp]
    decide
  · simp only [reset_decSp, reset_writeReg_decSp hne, State.advance_mem, State.setCell_mem,
      State.writeSp_mem, State.writeReg_mem, State.writeSp_readReg, State.writeReg_readReg, hne,
      if_true, if_false]
    rw [reset_readReg, if_neg hne]
    decide

/-- SP shows in the decremented SP, another register in the target. -/
theorem usesListed_call : UsesListed (.call (regByte r)) := by
  have hp : State.reset.pc.toNat + 2 ≤ 255 := by decide
  have hrun := execCall_regByte r State.reset hp reset_inv.decSp_lt
  refine usesListed_of_sp_and_read r rfl rfl (usesSp reset_inv (by simp [regWrites, spIdx]) hrun rfl
    (execCall_regByte r (State.reset.writeSp 0) hp (reset_inv.writeReg spIdx 0).decSp_lt) rfl ?_ ?_)
    fun hne => dependsOnReg_of_field (v := 1) reset_inv hrun rfl
      (execCall_regByte r _ hp (reset_inv.writeReg r 1).decSp_lt) rfl State.pc (fun _ _ => rfl) ?_
  · simp only [State.jumpTo_sp, State.setCell_sp, State.writeSp_sp]
    decide
  · simp only [State.jumpTo_sp, State.setCell_sp, State.writeSp_sp]
    decide
  · simp only [State.jumpTo_pc, State.writeSp_readReg, State.writeReg_readReg, hne, if_true, if_false]
    exact zext9_ne (reset_readReg_ne_one r).symm

end

/-- Every instruction with distinct register bytes below 8 uses the registers it lists. -/
theorem usesListed_of_distinct {i : Instr} (hwf : ∀ a ∈ i.regBytes, ∃ r : RegIdx, a = regByte r)
    (hnodup : i.regBytes.Nodup) : UsesListed i := by
  have one : ∀ {a : Byte}, i.regBytes = [a] → ∃ r : RegIdx, a = regByte r := fun h =>
    hwf _ (by simp [h])
  have two : ∀ {a b : Byte}, i.regBytes = [a, b] →
      ∃ ra rb : RegIdx, ra ≠ rb ∧ a = regByte ra ∧ b = regByte rb := fun h => by
    obtain ⟨ra, rfl⟩ := hwf _ (h ▸ List.mem_cons_self)
    obtain ⟨rb, rfl⟩ := hwf _ (h ▸ List.mem_cons_of_mem _ List.mem_cons_self)
    refine ⟨ra, rb, ?_, rfl, rfl⟩
    rintro rfl
    simp [h] at hnodup
  have alu : ∀ {op : AluOp} {a b : Byte}, op ≠ .cmp → op ≠ .not → i.regBytes = [a, b] →
      (∀ s, exec i s = aluRR op a b s) → regWrites i = [a.toNat] →
      regReads i = [a.toNat, b.toNat] → UsesListed i := fun hcmp hnot hb hexec hw hr => by
    obtain ⟨ra, rb, hne, rfl, rfl⟩ := two hb
    exact usesListed_aluRR hcmp hnot hne hexec hw hr
  cases i with
  | hlt => exact usesListed_of [] [] rfl rfl (List.forall_mem_nil _) (List.forall_mem_nil _)
  | ldi a v => obtain ⟨r, rfl⟩ := one rfl; exact usesListed_ldi r v
  | prn a => obtain ⟨r, rfl⟩ := one rfl; exact usesListed_prn r
  | add a b => exact alu (by simp) (by simp) rfl (fun _ => rfl) rfl rfl
  | mul a b => exact alu (by simp) (by simp) rfl (fun _ => rfl) rfl rfl
  | cmp a b => obtain ⟨ra, rb, hne, rfl, rfl⟩ := two rfl; exact usesListed_cmp hne
  | and a b => exact alu (by simp) (by simp) rfl (fun _ => rfl) rfl rfl
  | or a b => exact alu (by simp) (by simp) rfl (fun _ => rfl) rfl rfl
  | xor a b => exact alu (by simp) (by simp) rfl (fun _ => rfl) rfl rfl
  | not a => obtain ⟨r, rfl⟩ := one rfl; exact usesListed_not r
  | shl a b => exact alu (by simp) (by simp) rfl (fun _ => rfl) rfl rfl
  | shr a b => exact alu (by simp) (by simp) rfl (fun _ => rfl) rfl rfl
  | push a => obtain ⟨r, rfl⟩ := one rfl; exact usesListed_push r
  | pop a => obtain ⟨r, rfl⟩ := one rfl; exact usesListed_pop r
  | call a => obtain ⟨r, rfl⟩ := one rfl; exact usesListed_call r
  | ret => exact usesListed_ret
  | jmp a => obtain ⟨r, rfl⟩ := one rfl; exact usesListed_jmp r
  | jeq a => obtain ⟨r, rfl⟩ := one rfl; exact usesListed_jeq r
  | jne a => obtain ⟨r, rfl⟩ := one rfl; exact usesListed_jne r

/-- Settles O58, instruction by instruction, each from a state a Reset gives but for a register, FL or
the cell at SP. -/
theorem everyListedRegisterIsUsed : Obligations.EveryListedRegisterIsUsed := by
  intro i hwf hnodup
  have hbytes : ∀ a ∈ i.regBytes, ∃ r : RegIdx, a = regByte r := fun _ =>
    Instr.regByte_of_firstBad_none (Instr.firstBad_eq_none.mpr hwf)
  exact usesListed_of_distinct hbytes hnodup

end Sys2Proof.Machine
end

section
/-! PROOFS. 20_memory.md R60: the byte stored in a cell is what every later fetch of that cell finds. -/

namespace Sys2Proof

/-- The operand bytes of an instruction built from the bytes of consecutive cells are those of the first
cells, as many as its format has (30_encoding.md R71). -/
theorem Mnemonic.build_operandBytes (k : Mnemonic) (byteAt : Nat → Byte) :
    (k.build (byteAt 0) (byteAt 1)).operandBytes =
      (List.range k.format.operandCount).map byteAt := by
  cases k <;> rfl

end Sys2Proof

namespace Sys2Proof.Machine

/-- A RUNNING core takes the fault that its fetch raises. -/
theorem step_of_fetch_raise {s : State} {c : FaultCause} {v : Nat} (hr : s.runState = .running)
    (hf : s.fetchInstr = raise c v) : step s = .next (s.afterFault c v) := by
  rw [step_of_running hr, hf]
  rfl

/-- Of a state, a fetch at `a` sees the parameters and the cells from `a` up; the cell `a` itself is all
that decides which instruction it is. -/
theorem fetchFindsByte_of_read {t : State} {a v : Byte} (ha : a.toNat < t.cfg.memSize)
    (hv : t.mem.read a.toNat = v) : FetchFindsByte t a v := by
  intro u hcfg hpc hcell
  have hp : u.pc.toNat = a.toNat := by rw [hpc, zext9_toNat]
  have hread : u.mem.read u.pc.toNat = v := by rw [hp, hcell, hv]
  constructor
  · intro hnone
    have hfetch : u.fetchInstr = raise .unknownOpcode v.toNat := by
      rw [State.fetchInstr_unknown (by rwa [hp, hcfg]) (by rwa [hread]), hread]
    exact ⟨hfetch, fun hr => step_of_fetch_raise hr hfetch⟩
  · intro k hk hwidth
    have hfetch := State.fetchInstr_of_lookup (s := u) (by rwa [hread]) (by rwa [hp])
    rw [hp] at hfetch
    exact ⟨_, hfetch, Mnemonic.build_mnemonic k _ _,
      Mnemonic.build_operandBytes k fun n => u.mem.read (a.toNat + 1 + n)⟩

/-- Settles O49: PUSH and CALL each write the cell at the decremented SP, which always exists, and a fetch
there finds what was written. -/
theorem storedByteIsFetched : Obligations.StoredByteIsFetched := by
  intro s a hcfg hmem
  have hsp : s.decSp.toNat < s.cfg.memSize := State.decSp_lt hcfg
  have hstored : ∀ v, (s.mem.write s.decSp.toNat v).read s.decSp.toNat = v :=
    Memory.read_write_same hmem s.decSp.toNat
  constructor
  · refine ⟨_, execPush_regByte a s hsp, fetchFindsByte_of_read hsp ?_⟩
    simp [hstored]
  · intro hret
    refine ⟨_, execCall_regByte a s hret hsp, fetchFindsByte_of_read hsp ?_⟩
    simp [hstored]

end Sys2Proof.Machine
end

section
/-! PROOFS. 30_encoding.md sections 1 to 4: the decoder and the encoder are inverse to each other, and the
opcode bytes of the default map. -/

namespace Sys2Proof

/-! ### Decoding and encoding -/

theorem Format.operandCount_cases (f : Format) :
    f.operandCount = 0 ∨ f.operandCount = 1 ∨ f.operandCount = 2 := by
  cases f <;> simp [Format.operandCount]

/-- The operand bytes of a built instruction are the first of the two bytes it is built from, as many as
its format has (30_encoding.md R71). -/
theorem Mnemonic.build_operandBytes_take (k : Mnemonic) (a b : Byte) :
    (k.build a b).operandBytes = [a, b].take k.format.operandCount := by
  cases k <;> rfl

/-- The opcode byte and the operand bytes of an instruction decode to it, whatever follows. -/
theorem decode_cons_operandBytes {m : OpcodeMap} {op : Byte} {i : Instr}
    (h : m.lookup op = some i.mnemonic) (rest : List Byte) :
    decode m (op :: (i.operandBytes ++ rest)) = .ok (i, rest) := by
  simp only [decode, h]
  cases i <;> rfl

/-- An answer of the decoder comes from the opcode byte and the operand bytes of the instruction. -/
theorem decode_inversion {m : OpcodeMap} {bytes : List Byte} {i : Instr} {rest : List Byte}
    (h : decode m bytes = .ok (i, rest)) :
    ∃ op, m.lookup op = some i.mnemonic ∧ bytes = op :: (i.operandBytes ++ rest) := by
  cases bytes with
  | nil => cases h
  | cons op tail =>
    cases hl : m.lookup op with
    | none => simp [decode, hl] at h
    | some k =>
      have built : ∀ {a b : Byte} {tail' : List Byte},
          (.ok (k.build a b, tail') : Except DecodeReject (Instr × List Byte)) = .ok (i, rest) →
          tail = [a, b].take k.format.operandCount ++ tail' →
          ∃ op', m.lookup op' = some i.mnemonic ∧ op :: tail = op' :: (i.operandBytes ++ rest) := by
        rintro a b tail' ⟨⟩ rfl
        exact ⟨op, by rw [hl, Mnemonic.build_mnemonic], by rw [Mnemonic.build_operandBytes_take]⟩
      simp only [decode, hl] at h
      rcases k.format.operandCount_cases with hc | hc | hc <;> rw [hc] at h built
      · exact built h rfl
      · rcases tail with _ | ⟨a, tail⟩
        · cases h
        · exact built h rfl
      · rcases tail with _ | ⟨a, _ | ⟨b, tail⟩⟩
        · cases h
        · cases h
        · exact built h rfl

/-- Settles O8: the map looks the opcode byte of the instruction up as its mnemonic. -/
theorem decodeOfEncodeIsIdentity : Obligations.DecodeOfEncodeIsIdentity :=
  fun _ i rest hm => decode_cons_operandBytes (OpcodeMap.lookup_byteOf hm i.mnemonic) rest

/-- Settles O9: the opcode byte that was looked up is the byte of the mnemonic. -/
theorem encodeOfDecodeIsIdentity : Obligations.EncodeOfDecodeIsIdentity := by
  intro m bytes i rest h
  obtain ⟨op, hl, rfl⟩ := decode_inversion h
  rw [encode, OpcodeMap.byteOf_of_lookup hl, List.cons_append]

/-- Settles O10. -/
theorem sampleWordsDecode : Obligations.SampleWordsDecode := by
  unfold Obligations.SampleWordsDecode
  decide

/-! ### The bytes of a map -/

theorem OpcodeMap.lookup_eq_none_iff {m : OpcodeMap} {op : Byte} :
    m.lookup op = none ↔ op ∉ Mnemonic.all.map m.byteOf := by
  simp [OpcodeMap.lookup]

/-- The values of the bytes that a map gives to the mnemonics. -/
def OpcodeMap.legalValues (m : OpcodeMap) : List Nat := (Mnemonic.all.map m.byteOf).map BitVec.toNat

theorem OpcodeMap.mem_legalValues {m : OpcodeMap} {b : Nat} (hb : b < 256) :
    b ∈ m.legalValues ↔ (m.lookup (trunc8 b)).isNone = false := by
  have hbyte : ∀ x : Byte, x.toNat = b ↔ x = trunc8 b := fun x => by
    rw [← BitVec.toNat_inj, BitVec.toNat_ofNat, Nat.mod_eq_of_lt hb]
  rw [← Bool.not_eq_true, Option.isNone_iff_eq_none, OpcodeMap.lookup_eq_none_iff, not_not]
  simp only [OpcodeMap.legalValues, List.mem_map, hbyte, exists_eq_right]

theorem OpcodeMap.legalValues_nodup {m : OpcodeMap} (h : m.wf) : m.legalValues.Nodup :=
  List.Nodup.map (fun _ _ => BitVec.eq_of_toNat_eq) h

theorem OpcodeMap.legalValues_lt {m : OpcodeMap} {b : Nat} (h : b ∈ m.legalValues) : b < 256 := by
  obtain ⟨x, -, rfl⟩ := List.mem_map.mp h
  exact x.isLt

theorem OpcodeMap.legalValues_length (m : OpcodeMap) : m.legalValues.length = 19 := rfl

/-- Every map that keeps R79 leaves 237 of the 256 byte values illegal: its 19 bytes are distinct. -/
theorem OpcodeMap.illegal_count {m : OpcodeMap} (h : m.wf) :
    ((List.range 256).filter fun b => (m.lookup (trunc8 b)).isNone).length = 237 := by
  have hlegal : ((List.range 256).filter fun b => !(m.lookup (trunc8 b)).isNone).Perm m.legalValues := by
    refine (List.perm_ext_iff_of_nodup (List.nodup_range.filter _) (legalValues_nodup h)).mpr fun b => ?_
    simp only [List.mem_filter, List.mem_range, Bool.not_eq_true']
    exact ⟨fun ⟨hb, hl⟩ => (mem_legalValues hb).mpr hl,
      fun hb => ⟨legalValues_lt hb, (mem_legalValues (legalValues_lt hb)).mp hb⟩⟩
  have hsplit := List.length_eq_length_filter_add (l := List.range 256)
    fun b => (m.lookup (trunc8 b)).isNone
  rw [hlegal.length_eq, List.length_range, legalValues_length] at hsplit
  omega

/-- Settles O11. -/
theorem defaultMapHasTheIllegalBytes : Obligations.DefaultMapHasTheIllegalBytes :=
  ⟨OpcodeMap.illegal_count OpcodeMap.default_wf, by decide⟩

/-- Settles O12: R74 read off the 19 bytes of the table. -/
theorem defaultMapFollowsTheFieldLayout : Obligations.DefaultMapFollowsTheFieldLayout := by
  intro k
  cases k <;> decide

end Sys2Proof
end

section
/-! PROOFS. 30_encoding.md R90: an instruction written as assembler text is read back. -/

namespace Sys2Proof.Machine

/-! ### Digits and numerals -/

theorem digitChar_toNat : ∀ d < 10, (digitChar d).toNat = 48 + d := by decide

theorem digitValue_digitChar {base d : Nat} (hd : d < 10) (hb : d < base) :
    digitValue base (digitChar d) = some d := by
  have h : 48 + d ≤ 57 := by omega
  simp [digitValue, digitChar_toNat d hd, h, hb]

/-- The value of decimal digits, most significant first, after `n`. -/
def digitsFrom (n : Nat) (ds : List Nat) : Nat := ds.foldl (fun acc d => acc * 10 + d) n

theorem digitsValue_map_digitChar {ds : List Nat} (h : ∀ d ∈ ds, d < 10) :
    ∀ n, digitsValue 10 n (ds.map digitChar) = some (digitsFrom n ds) := by
  induction ds with
  | nil => exact fun _ => rfl
  | cons d ds ih =>
    intro n
    obtain ⟨hd, hds⟩ := List.forall_mem_cons.mp h
    simp only [List.map_cons, digitsValue, digitValue_digitChar hd hd]
    exact ih hds _

/-- The decimal numeral of a byte is a string of digits with the value of the byte. -/
theorem decimal_eq_digits (v : Byte) :
    ∃ ds : List Nat, decimal v = ds.map digitChar ∧ ds ≠ [] ∧ (∀ d ∈ ds, d < 10) ∧
      digitsFrom 0 ds = v.toNat := by
  have hv := v.isLt
  unfold decimal
  by_cases h1 : v.toNat < 10
  · exact ⟨[v.toNat], by simp [h1], by simp, by simpa using h1, by simp [digitsFrom]⟩
  · by_cases h2 : v.toNat < 100
    · exact ⟨[v.toNat / 10, v.toNat % 10], by simp [h1, h2], by simp, by simp; omega,
        by simp [digitsFrom]; omega⟩
    · exact ⟨[v.toNat / 100, v.toNat / 10 % 10, v.toNat % 10], by simp [h1, h2], by simp,
        by simp; omega, by simp [digitsFrom]; omega⟩

/-! ### Words -/

/-- A word of an instruction's text: at least one character, none of them a space or a comma. -/
def IsWord (w : List Char) : Prop := w ≠ [] ∧ ∀ c ∈ w, c ≠ ' ' ∧ c ≠ ','

theorem IsWord.ne_space {w : List Char} (h : IsWord w) {c : Char} (hc : c ∈ w) : c ≠ ' ' := (h.2 c hc).1

theorem IsWord.ne_comma {w : List Char} (h : IsWord w) {c : Char} (hc : c ∈ w) : c ≠ ',' := (h.2 c hc).2

theorem digitChar_ne_separator : ∀ d < 10, digitChar d ≠ ' ' ∧ digitChar d ≠ ',' := by decide

/-- No digit is the `x` or the `b` that names a base. -/
theorem digitChar_ne_base : ∀ d < 10, digitChar d ≠ 'x' ∧ digitChar d ≠ 'b' := by decide

theorem isWord_decimal (v : Byte) : IsWord (decimal v) := by
  obtain ⟨ds, hv, hne, hds, -⟩ := decimal_eq_digits v
  rw [hv]
  refine ⟨by simpa using hne, fun c hc => ?_⟩
  obtain ⟨d, hd, rfl⟩ := List.mem_map.mp hc
  exact digitChar_ne_separator d (hds d hd)

theorem isWord_mnemonicText (k : Mnemonic) : IsWord (mnemonicText k).toList := by
  cases k <;> simp [IsWord, mnemonicText]

theorem parseMnemonic_mnemonicText (k : Mnemonic) : parseMnemonic (mnemonicText k).toList = some k := by
  cases k <;> decide

/-- A numeral of digits alone is read in decimal: neither `0x` nor `0b` begins it. -/
theorem parseImm_digits {ds : List Nat} (h : ∀ d ∈ ds, d < 10) :
    parseImm (ds.map digitChar) = byteOfDigits 10 (ds.map digitChar) := by
  have hne : ∀ c ∈ ds.map digitChar, c ≠ 'x' ∧ c ≠ 'b' := fun c hc => by
    obtain ⟨d, hd, rfl⟩ := List.mem_map.mp hc
    exact digitChar_ne_base d (h d hd)
  generalize ds.map digitChar = t at hne
  unfold parseImm
  split
  · exact absurd rfl (hne 'x' (by simp)).1
  · exact absurd rfl (hne 'b' (by simp)).2
  · rfl

theorem parseImm_decimal (v : Byte) : parseImm (decimal v) = some v := by
  obtain ⟨ds, hv, hne, hds, hval⟩ := decimal_eq_digits v
  have hle : v.toNat ≤ 255 := by omega
  rw [hv, parseImm_digits hds]
  simp [byteOfDigits, hne, digitsValue_map_digitChar hds, hval, hle]

/-- A byte that names a register has a text, a word that is read back as the byte. -/
theorem regText_spec {a : Byte} (h : a.toNat < 8) :
    ∃ w, regText a = some w ∧ IsWord w ∧ parseReg w = some a := by
  have hd : a.toNat < 10 := by omega
  refine ⟨['R', digitChar a.toNat], by simp [regText, h], ⟨by simp, ?_⟩, ?_⟩
  · simpa using digitChar_ne_separator _ hd
  · simp [parseReg, digitValue_digitChar hd h]

/-! ### Cutting a text into words -/

theorem trim_eq_self {t : List Char} (hhead : t.head? ≠ some ' ') (hlast : t.getLast? ≠ some ' ') :
    trim t = t := by
  have drop : ∀ {u : List Char}, u.head? ≠ some ' ' → u.dropWhile (· = ' ') = u := fun {u} hu => by
    cases u with
    | nil => rfl
    | cons c u => exact List.dropWhile_cons_of_neg (by simpa using hu)
  rw [trim, drop hhead, drop (by rwa [List.head?_reverse]), List.reverse_reverse]

theorem trim_space (t : List Char) : trim (' ' :: t) = trim t := by
  simp [trim]

theorem IsWord.head?_append {w : List Char} (h : IsWord w) (t : List Char) :
    (w ++ t).head? ≠ some ' ' := by
  obtain ⟨c, w, rfl⟩ := List.exists_cons_of_ne_nil h.1
  simpa using h.ne_space (by simp)

theorem IsWord.getLast?_append {w : List Char} (h : IsWord w) (t : List Char) :
    (t ++ w).getLast? ≠ some ' ' := by
  rw [List.getLast?_append_of_ne_nil _ h.1]
  exact fun hlast => h.ne_space (List.mem_of_getLast? hlast) rfl

/-- A text that begins and ends with words has no spaces to trim. -/
theorem trim_words {u v : List Char} (hu : IsWord u) (hv : IsWord v) (t : List Char) :
    trim (u ++ (t ++ v)) = u ++ (t ++ v) :=
  trim_eq_self (hu.head?_append _) (by rw [← List.append_assoc]; exact hv.getLast?_append _)

theorem trim_word {w : List Char} (h : IsWord w) : trim w = w :=
  trim_eq_self (by simpa using h.head?_append []) (by simpa using h.getLast?_append [])

theorem splitAt_word {w : List Char} (h : ∀ c ∈ w, c ≠ ',') : splitAt ',' w = [w] := by
  induction w with
  | nil => rfl
  | cons c w ih =>
    obtain ⟨hc, hw⟩ := List.forall_mem_cons.mp h
    simp [splitAt, hc, ih hw]

theorem splitAt_append {w : List Char} (h : ∀ c ∈ w, c ≠ ',') (t : List Char) :
    splitAt ',' (w ++ ',' :: t) = w :: splitAt ',' t := by
  induction w with
  | nil => simp [splitAt]
  | cons c w ih =>
    obtain ⟨hc, hw⟩ := List.forall_mem_cons.mp h
    simp [splitAt, hc, ih hw]

/-- What stands before the first space of a text that begins with a word. -/
theorem IsWord.takeWhile_append {w : List Char} (h : IsWord w) (t : List Char) :
    (w ++ ' ' :: t).takeWhile (· ≠ ' ') = w := by
  rw [List.takeWhile_append_of_pos fun c hc => by simpa using h.ne_space hc]
  simp

theorem IsWord.dropWhile_append {w : List Char} (h : IsWord w) (t : List Char) :
    (w ++ ' ' :: t).dropWhile (· ≠ ' ') = ' ' :: t := by
  rw [List.dropWhile_append_of_pos fun c hc => by simpa using h.ne_space hc]
  simp

/-! ### Reading an instruction, by its format -/

theorem trim_operands {ta tb : List Char} (hta : IsWord ta) (htb : IsWord tb) :
    trim (' ' :: (ta ++ ',' :: ' ' :: tb)) = ta ++ ',' :: ' ' :: tb :=
  (trim_space _).trans (trim_words hta htb [',', ' '])

/-- The text of two operands is cut into the two operands. -/
theorem split_operands {ta tb : List Char} (hta : IsWord ta) (htb : IsWord tb) :
    (splitAt ',' (ta ++ ',' :: ' ' :: tb)).map trim = [ta, tb] := by
  have htb' : ∀ c ∈ ' ' :: tb, c ≠ ',' := List.forall_mem_cons.mpr ⟨by decide, fun _ => htb.ne_comma⟩
  rw [splitAt_append fun _ => hta.ne_comma, splitAt_word htb']
  simp [trim_space, trim_word hta, trim_word htb]

section
variable {k : Mnemonic} {a b : Byte} {ta tb : List Char}

theorem parseInstr_name (hk : k.format = .N) :
    parseInstr (mnemonicText k).toList = some (k.build 0 0) := by
  have hw := isWord_mnemonicText k
  have htake : (mnemonicText k).toList.takeWhile (· ≠ ' ') = (mnemonicText k).toList :=
    List.takeWhile_eq_self_iff.mpr fun c hc => by simpa using hw.ne_space hc
  have hdrop : (mnemonicText k).toList.dropWhile (· ≠ ' ') = [] :=
    List.dropWhile_eq_nil_iff.mpr fun c hc => by simpa using hw.ne_space hc
  simp only [parseInstr, trim_word hw, htake, hdrop, parseMnemonic_mnemonicText, Option.bind_eq_bind,
    Option.bind_some]
  simp [trim, hk]

theorem parseInstr_one (hk : k.format = .R) (hta : IsWord ta) (ha : parseReg ta = some a) :
    parseInstr ((mnemonicText k).toList ++ ' ' :: ta) = some (k.build a 0) := by
  have hw := isWord_mnemonicText k
  have htrim : trim ((mnemonicText k).toList ++ ' ' :: ta) = (mnemonicText k).toList ++ ' ' :: ta :=
    trim_words hw hta [' ']
  simp only [parseInstr, htrim, hw.takeWhile_append, hw.dropWhile_append, parseMnemonic_mnemonicText,
    Option.bind_eq_bind, Option.bind_some, trim_space, trim_word hta, hta.1, if_false,
    splitAt_word fun _ => hta.ne_comma]
  simp [hk, trim_word hta, ha]

theorem parseInstr_two (hta : IsWord ta) (htb : IsWord tb) (ha : parseReg ta = some a)
    (hb : k.format = .RR ∧ parseReg tb = some b ∨ k.format = .RI ∧ parseImm tb = some b) :
    parseInstr ((mnemonicText k).toList ++ ' ' :: (ta ++ ',' :: ' ' :: tb)) = some (k.build a b) := by
  have hw := isWord_mnemonicText k
  have htrim : trim ((mnemonicText k).toList ++ ' ' :: (ta ++ ',' :: ' ' :: tb)) =
      (mnemonicText k).toList ++ ' ' :: (ta ++ ',' :: ' ' :: tb) := by
    simpa using trim_words hw htb (' ' :: (ta ++ [',', ' ']))
  have hne : ta ++ ',' :: ' ' :: tb ≠ [] := by simp
  simp only [parseInstr, htrim, hw.takeWhile_append, hw.dropWhile_append, parseMnemonic_mnemonicText,
    Option.bind_eq_bind, Option.bind_some, trim_operands hta htb, hne, if_false, split_operands hta htb]
  rcases hb with ⟨hk, hb⟩ | ⟨hk, hb⟩ <;> simp [hk, ha, hb]

end

/-! ### Every well-formed instruction -/

/-- The instruction has a text, and the text is read back as the instruction. -/
def ReadsBack (i : Instr) : Prop := ∃ text, instrText i = some text ∧ parseInstr text = some i

section
variable {i : Instr} {a b : Byte}

theorem readsBack_name (hk : i.mnemonic.format = .N) (ho : i.operandBytes = [])
    (hi : i.mnemonic.build 0 0 = i) : ReadsBack i :=
  ⟨(mnemonicText i.mnemonic).toList, by simp [instrText, hk, ho], by rw [parseInstr_name hk, hi]⟩

theorem readsBack_reg (hk : i.mnemonic.format = .R) (ho : i.operandBytes = [a])
    (hi : i.mnemonic.build a 0 = i) (ha : a.toNat < 8) : ReadsBack i := by
  obtain ⟨ta, hta, hwa, hpa⟩ := regText_spec ha
  exact ⟨(mnemonicText i.mnemonic).toList ++ ' ' :: ta, by simp [instrText, hk, ho, hta],
    by rw [parseInstr_one hk hwa hpa, hi]⟩

theorem readsBack_regReg (hk : i.mnemonic.format = .RR) (ho : i.operandBytes = [a, b])
    (hi : i.mnemonic.build a b = i) (ha : a.toNat < 8) (hb : b.toNat < 8) : ReadsBack i := by
  obtain ⟨ta, hta, hwa, hpa⟩ := regText_spec ha
  obtain ⟨tb, htb, hwb, hpb⟩ := regText_spec hb
  exact ⟨(mnemonicText i.mnemonic).toList ++ ' ' :: (ta ++ ',' :: ' ' :: tb),
    by simp [instrText, hk, ho, hta, htb],
    by rw [parseInstr_two hwa hwb hpa (.inl ⟨hk, hpb⟩), hi]⟩

theorem readsBack_regImm (hk : i.mnemonic.format = .RI) (ho : i.operandBytes = [a, b])
    (hi : i.mnemonic.build a b = i) (ha : a.toNat < 8) : ReadsBack i := by
  obtain ⟨ta, hta, hwa, hpa⟩ := regText_spec ha
  exact ⟨(mnemonicText i.mnemonic).toList ++ ' ' :: (ta ++ ',' :: ' ' :: decimal b),
    by simp [instrText, hk, ho, hta],
    by rw [parseInstr_two hwa (isWord_decimal b) hpa (.inr ⟨hk, parseImm_decimal b⟩), hi]⟩

end

/-- Settles O13, by the four formats: each text is cut into its words, and each word is read back. -/
theorem assemblyTextReadsBack : Obligations.AssemblyTextReadsBack := by
  intro i hwf
  have small : ∀ a ∈ i.regBytes, a.toNat < 8 := by simpa [Instr.wellFormed] using hwf
  cases i with
  | hlt | ret => exact readsBack_name rfl rfl rfl
  | ldi a v => exact readsBack_regImm rfl rfl rfl (small a (by simp [Instr.regBytes]))
  | prn a | not a | push a | pop a | call a | jmp a | jeq a | jne a =>
    exact readsBack_reg rfl rfl rfl (small a (by simp [Instr.regBytes]))
  | add a b | mul a b | cmp a b | and a b | or a b | xor a b | shl a b | shr a b =>
    exact readsBack_regReg rfl rfl rfl (small a (by simp [Instr.regBytes]))
      (small b (by simp [Instr.regBytes]))

end Sys2Proof.Machine
end

section
/-! PROOFS. 30_encoding.md sections 5 and 6: what a step of the core runs, and how it ends. -/

namespace Sys2Proof

theorem Instr.operandBytes_length (i : Instr) :
    i.operandBytes.length = i.mnemonic.format.operandCount := by
  cases i <;> rfl

/-- An instruction is determined by its mnemonic and its operand bytes. -/
theorem Instr.eq_of_operandBytes {i j : Instr} (hk : i.mnemonic = j.mnemonic)
    (hb : i.operandBytes = j.operandBytes) : i = j := by
  have rebuild : ∀ i : Instr,
      i.mnemonic.build (i.operandBytes.getD 0 0) (i.operandBytes.getD 1 0) = i := by
    intro i
    cases i <;> rfl
  rw [← rebuild i, hk, hb, rebuild j]

end Sys2Proof

namespace Sys2Proof.Machine

/-! ### Fetch -/

/-- The operand bytes of `i` stand in the cells from `a` up. -/
def State.HoldsOperands (s : State) (i : Instr) (a : Nat) : Prop :=
  i.operandBytes = (List.range i.mnemonic.format.operandCount).map fun n => s.mem.read (a + n)

/-- A fetch that answers found the opcode byte of the instruction at pc. -/
theorem State.lookup_of_fetchInstr {s : State} {i : Instr} (h : s.fetchInstr = .ok i)
    (hp : s.pc.toNat < s.cfg.memSize) :
    s.cfg.opcodeMap.lookup (s.mem.read s.pc.toNat) = some i.mnemonic := by
  cases hl : s.cfg.opcodeMap.lookup (s.mem.read s.pc.toNat) with
  | none => cases (State.fetchInstr_unknown hp hl).symm.trans h
  | some k =>
    simp only [State.fetchInstr, State.memRead_ok hp, bind_ok, hl] at h
    cases hops : s.fetchOperands k (s.pc.toNat + 1) with
    | error f => simp [hops] at h
    | ok ab =>
      simp only [hops, bind_ok, pure_ok, Except.ok.injEq] at h
      rw [← h, Mnemonic.build_mnemonic]

/-- A fetch answers `i` exactly where the width of `i` lies in memory, the opcode byte at pc is that of
`i`, and the cells after it hold the operand bytes of `i` (30_encoding.md R82). -/
theorem State.fetchInstr_eq_ok_iff {s : State} {i : Instr} :
    s.fetchInstr = .ok i ↔
      s.pc.toNat + i.mnemonic.format.operandCount < s.cfg.memSize ∧
      s.cfg.opcodeMap.lookup (s.mem.read s.pc.toNat) = some i.mnemonic ∧
      s.HoldsOperands i (s.pc.toNat + 1) := by
  have built := Mnemonic.build_operandBytes i.mnemonic fun n => s.mem.read (s.pc.toNat + 1 + n)
  constructor
  · intro h
    have hw : s.pc.toNat + i.mnemonic.format.operandCount < s.cfg.memSize := by
      rcases s.fetchInstr_cases with ⟨j, hj, hw⟩ | ⟨f, hf, -⟩
      · obtain rfl : j = i := Except.ok.inj (hj.symm.trans h)
        rw [Instr.width, Mnemonic.width] at hw
        omega
      · cases hf.symm.trans h
    have hl := State.lookup_of_fetchInstr h (by omega)
    have hi := Except.ok.inj (h.symm.trans (State.fetchInstr_of_lookup hl hw))
    exact ⟨hw, hl, (congrArg Instr.operandBytes hi).trans built⟩
  · rintro ⟨hw, hl, hb⟩
    rw [State.fetchInstr_of_lookup hl hw]
    exact congrArg _ (Instr.eq_of_operandBytes (Mnemonic.build_mnemonic _ _ _) (built.trans hb.symm))

/-- Settles O31: the opcode byte and the operand bytes lie within the width. -/
theorem fetchLooksAtItsWidthOnly : Obligations.FetchLooksAtItsWidthOnly := by
  intro s i mem h hsame
  obtain ⟨hw, hl, hb⟩ := State.fetchInstr_eq_ok_iff.mp h
  have hwidth : i.width = 1 + i.mnemonic.format.operandCount := rfl
  refine State.fetchInstr_eq_ok_iff.mpr ⟨hw, ?_, hb.trans ?_⟩
  · have h0 := hsame 0 (by omega)
    rw [← hl]
    exact congrArg _ h0
  · refine List.map_congr_left fun n hn => ?_
    have hn' := List.mem_range.mp hn
    rw [Nat.add_assoc]
    exact (hsame (1 + n) (by omega)).symm

/-- Every byte that `bytesFrom` lists is the byte of a cell that exists. -/
theorem State.bytesFrom_getElem? {s : State} {n : Nat} : ∀ {a j : Nat} {v : Byte},
    (s.bytesFrom n a)[j]? = some v → a + j < s.cfg.memSize ∧ v = s.mem.read (a + j) := by
  induction n with
  | zero => intro a j v h; cases h
  | succ n ih =>
    intro a j v h
    by_cases ha : a < s.cfg.memSize
    · rw [State.bytesFrom_eq ha] at h
      cases j with
      | zero => exact ⟨ha, (Option.some.inj h).symm⟩
      | succ j =>
        have := ih (List.getElem?_cons_succ ▸ h)
        rwa [Nat.add_assoc, Nat.add_comm 1 j] at this
    · rw [State.bytesFrom_nil ha] at h
      cases h

/-- Bytes at pc that decode to `i` are fetched as `i`. -/
theorem State.fetchInstr_of_decode {s : State} {n : Nat} {i : Instr} {rest : List Byte}
    (h : decode s.cfg.opcodeMap (s.bytesFrom n s.pc.toNat) = .ok (i, rest)) :
    s.fetchInstr = .ok i := by
  obtain ⟨op, hl, hbytes⟩ := decode_inversion h
  have hcell : ∀ {j : Nat} {v : Byte}, (op :: (i.operandBytes ++ rest))[j]? = some v →
      s.pc.toNat + j < s.cfg.memSize ∧ v = s.mem.read (s.pc.toNat + j) := fun hj =>
    State.bytesFrom_getElem? (hbytes ▸ hj)
  have hoperand : ∀ j (hj : j < i.operandBytes.length),
      s.pc.toNat + (j + 1) < s.cfg.memSize ∧
        i.operandBytes[j] = s.mem.read (s.pc.toNat + (j + 1)) := fun j hj =>
    hcell (by rw [List.getElem?_cons_succ, List.getElem?_append_left hj, List.getElem?_eq_getElem hj])
  obtain ⟨hp, hop⟩ := hcell (j := 0) rfl
  refine State.fetchInstr_eq_ok_iff.mpr ⟨?_, hop ▸ hl, ?_⟩
  · rw [← i.operandBytes_length]
    by_cases h0 : i.operandBytes.length = 0
    · omega
    · have := (hoperand (i.operandBytes.length - 1) (by omega)).1
      omega
  · refine List.ext_getElem (by simp [i.operandBytes_length]) fun j hj _ => ?_
    rw [(hoperand j hj).2, List.getElem_map, List.getElem_range, Nat.add_assoc, Nat.add_comm 1 j]

/-! ### One step -/

theorem exec_answers (i : Instr) (s : State) : ∃ t, exec i s = .next t := by
  rcases exec_cases i s with ⟨t, ht, -⟩ | ⟨f, hf, -⟩
  · exact ⟨t, ht⟩
  · exact ⟨_, hf⟩

/-- Settles O24: an instruction that faults answers a state too. -/
theorem everyStepAnswers : Obligations.EveryStepAnswers :=
  fun s => ⟨step_answers s, fun i => exec_answers i s⟩

/-- Settles O14: the bytes that decode to `i` are fetched as `i`, and the step is `exec i`, counted. -/
theorem stepRunsTheDecodedInstruction : Obligations.StepRunsTheDecodedInstruction := by
  intro s i rest hr h
  obtain ⟨t, ht⟩ := exec_answers i s
  refine ⟨t, ht, ?_⟩
  rw [step_of_running hr, State.fetchInstr_of_decode h]
  exact (congrArg counted ht).trans (counted_next t)

/-- Settles O16. -/
theorem badRegisterOperandRaisesRegRange : Obligations.BadRegisterOperandRaisesRegRange :=
  fun _ s r h => (exec_firstBad h s).trans (by rw [State.enterFault_eq_afterFault])

/-- Settles O20. -/
theorem endedCoreNeverChanges : Obligations.EndedCoreNeverChanges :=
  fun _ k t h => stepsTo_of_ended h k t

/-- HLT takes no fault (40_basic.md R100). -/
theorem exec_hlt_ne_fault (s : State) (f : Raised) : exec .hlt s ≠ .next (s.enterFault f) := by
  intro h
  have hrun := congrArg State.runState (Host.Outcome.next.inj h)
  cases hrun

/-- The two ways a step of a RUNNING core ends: with a fault, which is not HLT's, or with the fetched
instruction completed and counted. -/
theorem step_ends {s t : State} (hr : s.runState = .running) (h : step s = .next t) :
    (s.fetchInstr ≠ .ok .hlt ∧ ∃ f, t = s.enterFault f) ∨
    (∃ i c, s.fetchInstr = .ok i ∧ Completed i s c ∧ t = c.countStep) := by
  rcases step_cases hr with ⟨i, c, hi, -, -, hc, -, hs⟩ | ⟨i, f, hi, he, -, hs⟩ | ⟨f, hf, -, hs⟩ <;>
    obtain rfl := Host.Outcome.next.inj (h.symm.trans hs)
  · exact .inr ⟨i, c, hi, hc, rfl⟩
  · refine .inl ⟨fun hhlt => ?_, f, rfl⟩
    obtain rfl : i = .hlt := Except.ok.inj (hi.symm.trans hhlt)
    exact exec_hlt_ne_fault s f he
  · exact .inl ⟨by simp [hf], f, rfl⟩

/-- Settles O21: a fault leaves STEPS and is not HLT's; a completed instruction counts, and HLT alone
halts. -/
theorem runStateFollowsItsTable : Obligations.RunStateFollowsItsTable := by
  intro s t hr h
  rcases step_ends hr h with ⟨hhlt, f, rfl⟩ | ⟨i, c, hi, hc, rfl⟩
  · simp [hhlt]
  · rw [State.countStep_runState, State.countStep_steps, hc.runState, hc.steps, hr, hi]
    by_cases hhlt : i = .hlt <;> simp [hhlt]

/-- Settles O30: the pc of a completed instruction, read as a number; neither way wraps in 9 bits. -/
theorem nextPcIsTargetOrExactAdvance : Obligations.NextPcIsTargetOrExactAdvance := by
  intro s t i hcfg hr hi h hne
  rcases step_next_cases h with ⟨hend, -⟩ | ⟨-, f, -, rfl⟩ | ⟨-, j, c, hj, hw, hc, rfl⟩
  · exact absurd hr hend
  · exact absurd rfl hne
  · obtain rfl : j = i := Except.ok.inj (hj.symm.trans hi)
    rcases hc.pc with ⟨v, hv, hp⟩ | ⟨hnone, hp⟩
    · simp [hv, hp, zext9_toNat]
    · simp [hnone, hp, pc_add_toNat hw hcfg.2.1, hw]

end Sys2Proof.Machine
end

section
/-! PROOFS. 30_encoding.md R79: the effect of an instruction does not depend on the opcode map. -/

namespace Sys2Proof.Machine

/-- `s` with another opcode map. -/
abbrev State.withMap (s : State) (m : OpcodeMap) : State :=
  { s with cfg := { s.cfg with opcodeMap := m } }

/-- `i` ends the same way from `s` under the opcode map `m`, but for the map. -/
def IgnoresMap (i : Instr) (s : State) (m : OpcodeMap) : Prop :=
  ∃ t, exec i s = .next t ∧ exec i (s.withMap m) = .next (t.withMap m)

theorem exec_jne_not_taken (r : RegIdx) {s : State} (h : s.flE = true) :
    exec (.jne (regByte r)) s = .next (s.advance 2) :=
  (execJne_regByte r s).trans (by simp [h])

section
variable {i : Instr} (s : State) (m : OpcodeMap)

theorem alu_withMap (op : AluOp) (ra rb : RegIdx) :
    alu op ra rb (s.withMap m) = (alu op ra rb s).withMap m := by
  cases op <;> rfl

theorem ignoresMap_alu (op : AluOp) (ra rb : RegIdx) (w : Nat)
    (h : ∀ s, exec i s = .next ((alu op ra rb s).advance w)) : IgnoresMap i s m :=
  ⟨_, h s, (h _).trans (by rw [alu_withMap]; rfl)⟩

variable (r : RegIdx)

theorem ignoresMap_push : IgnoresMap (.push (regByte r)) s m := by
  by_cases h : s.decSp.toNat < s.cfg.memSize
  · exact ⟨_, execPush_regByte r s h, execPush_regByte r (s.withMap m) h⟩
  · exact ⟨_, execPush_addrRange r s h, execPush_addrRange r (s.withMap m) h⟩

theorem ignoresMap_pop : IgnoresMap (.pop (regByte r)) s m := by
  by_cases h : s.sp.toNat < s.cfg.memSize
  · exact ⟨_, execPop_regByte r s h, execPop_regByte r (s.withMap m) h⟩
  · exact ⟨_, execPop_addrRange r s h, execPop_addrRange r (s.withMap m) h⟩

theorem ignoresMap_call : IgnoresMap (.call (regByte r)) s m := by
  by_cases hp : s.pc.toNat + 2 ≤ 255
  · by_cases h : s.decSp.toNat < s.cfg.memSize
    · exact ⟨_, execCall_regByte r s hp h, execCall_regByte r (s.withMap m) hp h⟩
    · exact ⟨_, execCall_addrRange r s hp h, execCall_addrRange r (s.withMap m) hp h⟩
  · have hp' : 255 < s.pc.toNat + 2 := by omega
    exact ⟨_, execCall_retAddrRange r s hp', execCall_retAddrRange r (s.withMap m) hp'⟩

theorem ignoresMap_ret : IgnoresMap .ret s m := by
  by_cases h : s.sp.toNat < s.cfg.memSize
  · exact ⟨_, execRet_ok s h, execRet_ok (s.withMap m) h⟩
  · exact ⟨_, execRet_addrRange s h, execRet_addrRange (s.withMap m) h⟩

theorem ignoresMap_jeq : IgnoresMap (.jeq (regByte r)) s m := by
  cases h : s.flE
  · exact ⟨_, exec_jeq_not_taken r h, exec_jeq_not_taken r (s := s.withMap m) h⟩
  · exact ⟨_, exec_jeq_taken r h, exec_jeq_taken r (s := s.withMap m) h⟩

theorem ignoresMap_jne : IgnoresMap (.jne (regByte r)) s m := by
  cases h : s.flE
  · exact ⟨_, exec_jne_taken r h, exec_jne_taken r (s := s.withMap m) h⟩
  · exact ⟨_, exec_jne_not_taken r h, exec_jne_not_taken r (s := s.withMap m) h⟩

/-- An instruction whose register bytes name registers has the same effect under every opcode map. -/
theorem ignoresMap_of_registers (hwf : ∀ a ∈ i.regBytes, ∃ r : RegIdx, a = regByte r) :
    IgnoresMap i s m := by
  have one : ∀ {a : Byte}, i.regBytes = [a] → ∃ r : RegIdx, a = regByte r := fun h =>
    hwf _ (by simp [h])
  have alu : ∀ {op : AluOp} {a b : Byte}, i.regBytes = [a, b] →
      (∀ s, exec i s = aluRR op a b s) → IgnoresMap i s m := fun {op a b} hb hexec => by
    obtain ⟨ra, rfl⟩ := hwf a (by simp [hb])
    obtain ⟨rb, rfl⟩ := hwf b (by simp [hb])
    exact ignoresMap_alu s m op ra rb 3 fun s => (hexec s).trans (aluRR_regByte _ ra rb s)
  cases i with
  | hlt => exact ⟨_, rfl, rfl⟩
  | ldi a v => obtain ⟨r, rfl⟩ := one rfl; exact ⟨_, execLdi_regByte r s v, execLdi_regByte r _ v⟩
  | prn a => obtain ⟨r, rfl⟩ := one rfl; exact ⟨_, execPrn_regByte r s, execPrn_regByte r _⟩
  | add a b | mul a b | cmp a b | and a b | or a b | xor a b | shl a b | shr a b =>
    exact alu rfl fun _ => rfl
  | not a => obtain ⟨r, rfl⟩ := one rfl; exact ignoresMap_alu s m .not r r 2 (execNot_regByte r)
  | push a => obtain ⟨r, rfl⟩ := one rfl; exact ignoresMap_push s m r
  | pop a => obtain ⟨r, rfl⟩ := one rfl; exact ignoresMap_pop s m r
  | call a => obtain ⟨r, rfl⟩ := one rfl; exact ignoresMap_call s m r
  | ret => exact ignoresMap_ret s m
  | jmp a => obtain ⟨r, rfl⟩ := one rfl; exact ⟨_, execJmp_regByte r s, execJmp_regByte r _⟩
  | jeq a => obtain ⟨r, rfl⟩ := one rfl; exact ignoresMap_jeq s m r
  | jne a => obtain ⟨r, rfl⟩ := one rfl; exact ignoresMap_jne s m r

end

/-- Settles O32: a bad register byte faults alike under both maps; otherwise instruction by
instruction. -/
theorem execIgnoresTheOpcodeMap : Obligations.ExecIgnoresTheOpcodeMap := by
  intro i s m
  cases hbad : Instr.firstBad i with
  | some r => exact ⟨_, exec_firstBad hbad s, exec_firstBad hbad (s.withMap m)⟩
  | none => exact ignoresMap_of_registers s m fun _ => Instr.regByte_of_firstBad_none hbad

end Sys2Proof.Machine
end

section
/-! PROOFS. Shared by the families of instructions: the checks of operands, what a step of a completed
instruction answers, and how a frame grows by one update. -/

namespace Sys2Proof.Machine

/-! ### Operand checks (30_encoding.md R82, R83) -/

theorem checksItsRegister_of_regBytes {mk : Byte → Instr} (h : ∀ a, (mk a).regBytes = [a]) :
    ChecksItsRegister mk := by
  intro s a ha
  have hbad : Instr.firstBad (mk a) = some a := by simp [Instr.firstBad, h, ha]
  exact exec_firstBad hbad s

section
variable {s : State} {k : Mnemonic} (hp : s.pc.toNat < s.cfg.memSize)
  (hl : s.cfg.opcodeMap.lookup (s.mem.read s.pc.toNat) = some k)
include hp hl

/-- Once the opcode byte is known, the fetch is that of the operand bytes. -/
theorem State.fetchInstr_of_opcode :
    s.fetchInstr = s.fetchOperands k (s.pc.toNat + 1) >>= fun ab => pure (k.build ab.1 ab.2) := by
  simp only [State.fetchInstr, State.memRead_ok hp, bind_ok, hl]

theorem State.fetchInstr_first_operand_missing (hk : 1 ≤ k.format.operandCount)
    (hm : s.cfg.memSize ≤ s.pc.toNat + 1) : s.fetchInstr = raise .addrRange (s.pc.toNat + 1) := by
  have hread := State.memRead_error (s := s) (Nat.not_lt.mpr hm)
  rw [State.fetchInstr_of_opcode hp hl, State.fetchOperands]
  rcases k.format.operandCount_cases with hc | hc | hc
  · omega
  · simp only [hc, hread, bind_error, raise]
  · simp only [hc, hread, bind_error, raise]

theorem State.fetchInstr_second_operand_missing (hk : k.format.operandCount = 2)
    (hm : s.pc.toNat + 2 = s.cfg.memSize) : s.fetchInstr = raise .addrRange (s.pc.toNat + 2) := by
  have hfirst : s.memRead (s.pc.toNat + 1) = .ok _ := State.memRead_ok (by omega)
  have hsecond : s.memRead (s.pc.toNat + 1 + 1) = .error _ := State.memRead_error (by omega)
  rw [State.fetchInstr_of_opcode hp hl, State.fetchOperands]
  simp only [hk, hfirst, hsecond, bind_ok, bind_error, raise]

end

/-- The operand bytes of every mnemonic are fetched from cells that exist. -/
theorem operandsMustExist (k : Mnemonic) : OperandsMustExist k := fun _ hr hp hl =>
  ⟨fun hk hm => step_of_fetch_raise hr (State.fetchInstr_first_operand_missing hp hl hk hm),
    fun hk hm => step_of_fetch_raise hr (State.fetchInstr_second_operand_missing hp hl hk hm)⟩

/-! ### One step -/

/-- The step of an instruction that completes: its own state, counted (30_encoding.md R84). -/
theorem step_of_exec {s t : State} {i : Instr} (hr : s.runState = .running)
    (hi : s.fetchInstr = .ok i) (he : exec i s = .next t) (hne : t.runState ≠ .faulted) :
    step s = .next t.countStep := by
  rw [step_of_running hr, hi]
  simp [he, hne]

/-! ### Frames -/

theorem Frame.refl (rs : List RegIdx) (cells : List Nat) (s : State) : Frame rs cells s s :=
  ⟨fun _ _ => rfl, fun _ _ => rfl, rfl, rfl, rfl, rfl, rfl, rfl, rfl, rfl, rfl⟩

section
variable {rs : List RegIdx} {cells : List Nat} {s t : State} (h : Frame rs cells s t)
include h

theorem Frame.advance (w : Nat) : Frame rs cells s (t.advance w) :=
  ⟨h.regs, h.mem, h.fl, h.out, h.cfg, h.runState, h.faultCause, h.faultPc, h.faultValue, h.steps,
    h.draws⟩

theorem Frame.writeReg {r : RegIdx} (hr : r ∈ rs) (v : Byte) : Frame rs cells s (t.writeReg r v) where
  regs := fun q hq => by
    have hqr : q ≠ r := fun heq => hq (heq ▸ hr)
    rw [State.writeReg_readReg, if_neg hqr, h.regs q hq]
  mem := h.mem
  fl := h.fl
  out := h.out
  cfg := h.cfg
  runState := h.runState
  faultCause := h.faultCause
  faultPc := h.faultPc
  faultValue := h.faultValue
  steps := h.steps
  draws := h.draws

end

end Sys2Proof.Machine
end

section
/-! PROOFS. 40_basic.md: HLT, LDI and PRN. -/

namespace Sys2Proof.Machine

theorem exec_hlt (s : State) : exec .hlt s = .next (s.advance 1).halt := rfl

/-- Settles O35: the state HLT answers, and the step that counts it. -/
theorem hltHalts : Obligations.HltHalts := by
  refine ⟨rfl, fun s => ⟨_, exec_hlt s, rfl, rfl, (Frame.refl [] [] s.halt).advance 1⟩,
    fun s hr hi => ?_⟩
  have hstep := step_of_exec hr hi (exec_hlt s) (by simp)
  exact ⟨_, hstep, rfl, rfl, rfl⟩

/-- Settles O36: the register holds the immediate, so a PRN of it appends the immediate to OUT. -/
theorem ldiLoadsItsImmediate : Obligations.LdiLoadsItsImmediate := by
  refine ⟨fun _ _ => rfl, fun _ => checksItsRegister_of_regBytes fun _ => rfl,
    operandsMustExist .ldi, fun s a v => ?_⟩
  have hframe := ((Frame.refl [a] [] s).writeReg (List.mem_singleton_self a) v).advance 3
  have hread : ((s.writeReg a v).advance 3).readReg a = v := by simp
  refine ⟨_, execLdi_regByte a s v, hread, rfl, hframe, _, execPrn_regByte a _, ?_⟩
  rw [hread]
  rfl

/-- Settles O37: PRN is the output event and an advance of 2. -/
theorem prnEmitsItsRegister : Obligations.PrnEmitsItsRegister :=
  ⟨fun _ => rfl, checksItsRegister_of_regBytes fun _ => rfl, operandsMustExist .prn, fun s a =>
    ⟨_, execPrn_regByte a s, rfl, rfl, (Frame.refl [] [] (s.emit (s.readReg a))).advance 2⟩⟩

end Sys2Proof.Machine
end

section
/-! PROOFS. 41_alu.md: the nine ALU instructions. -/

namespace Sys2Proof.Machine

/-! ### What the operations compute -/

section
variable (va vb : Byte)

theorem aluAdd_toNat : (aluAdd va vb).toNat = (va.toNat + vb.toNat) % 256 :=
  BitVec.toNat_ofNat _ 8

theorem aluMul_toNat : (aluMul va vb).toNat = va.toNat * vb.toNat % 256 :=
  BitVec.toNat_ofNat _ 8

theorem aluNot_toNat : (aluNot va).toNat = 255 - va.toNat :=
  BitVec.toNat_not

theorem aluShl_toNat : (aluShl va vb).toNat = va.toNat * 2 ^ vb.toNat % 256 := by
  rw [aluShl, BitVec.toNat_ofNat, Nat.shiftLeft_eq]

/-- A shift right never leaves the byte, so `trunc8` drops nothing. -/
theorem aluShr_toNat : (aluShr va vb).toNat = va.toNat / 2 ^ vb.toNat := by
  rw [aluShr, BitVec.toNat_ofNat, Nat.shiftRight_eq_div_pow]
  exact Nat.mod_eq_of_lt ((Nat.div_le_self _ _).trans_lt va.isLt)

variable {vb}

/-- 256 divides `2 ^ vb`. -/
theorem aluShl_eq_zero (h : 8 ≤ vb.toNat) : aluShl va vb = 0 := by
  refine BitVec.eq_of_toNat_eq ((aluShl_toNat va vb).trans ?_)
  exact Nat.mod_eq_zero_of_dvd ((Nat.pow_dvd_pow 2 h).mul_left _)

/-- Every byte is below `2 ^ vb`. -/
theorem aluShr_eq_zero (h : 8 ≤ vb.toNat) : aluShr va vb = 0 := by
  refine BitVec.eq_of_toNat_eq ((aluShr_toNat va vb).trans ?_)
  exact Nat.div_eq_of_lt (va.isLt.trans_le (Nat.pow_le_pow_right (by decide) h))

end

/-! ### What a compare leaves in FL (41_alu.md R115) -/

section
variable {va vb : Byte} (mode : CmpMode) (old : Byte) (keep : Bool)

theorem cmpFlags_of_eq (h : va.toNat = vb.toNat) : cmpFlags mode va vb old keep = flagE := by
  cases mode <;> simp [cmpFlags, h]

theorem cmpFlags_of_lt (h : va.toNat < vb.toNat) : cmpFlags mode va vb old keep = flagL := by
  cases mode <;> simp [cmpFlags, h, h.ne, h.le]

theorem cmpFlags_corrected_of_gt (h : vb.toNat < va.toNat) :
    cmpFlags .corrected va vb old keep = flagG := by
  simp [cmpFlags, h, h.ne']

theorem cmpFlags_legacy_of_gt (h : vb.toNat < va.toNat) :
    cmpFlags .legacy va vb old keep = old ∨ cmpFlags .legacy va vb old keep = 0 := by
  cases keep <;> simp [cmpFlags, h.ne', h.le]

end

/-! ### What the instructions answer -/

theorem checksBothRegisters_of_regBytes {mk : Byte → Byte → Instr}
    (h : ∀ a b, (mk a b).regBytes = [a, b]) : ChecksBothRegisters mk := by
  intro s a b
  refine ⟨fun ha => ?_, fun ha hb => ?_⟩
  · have hbad : Instr.firstBad (mk a b) = some a := by simp [Instr.firstBad, h, ha]
    exact exec_firstBad hbad s
  · have hbad : Instr.firstBad (mk a b) = some b := by simp [Instr.firstBad, h, ha, hb]
    exact exec_firstBad hbad s

section
variable {op : AluOp} (hop : op ≠ .cmp) (s : State) (ra rb : RegIdx)
include hop

theorem alu_advance_frame (w : Nat) : Frame [ra] [] s ((alu op ra rb s).advance w) := by
  rw [alu_eq_writeReg hop]
  exact ((Frame.refl [ra] [] s).writeReg (List.mem_singleton_self ra) _).advance w

/-- A two-register instruction other than CMP writes its result to x[A], advances by 3, and leaves the
rest (41_alu.md R110, R113). -/
theorem aluRR_answers : ∃ t, aluRR op (regByte ra) (regByte rb) s = .next t ∧
    t.readReg ra = aluResult op (s.readReg ra) (s.readReg rb) ∧
    t.pc = s.pc + 3 ∧ Frame [ra] [] s t :=
  ⟨_, aluRR_regByte op ra rb s, alu_readReg_fst op ra rb s,
    congrArg (· + 3) (alu_frame op ra rb s).pc, alu_advance_frame hop s ra rb 3⟩

end

/-- A PRN that follows appends the register to what OUT held before (40_basic.md R102). -/
theorem Frame.prn_out {rs : List RegIdx} {cells : List Nat} {s t : State} {r : RegIdx} {v : Byte}
    (h : Frame rs cells s t) (hread : t.readReg r = v) :
    ∃ u, exec (.prn (regByte r)) t = .next u ∧ u.out = s.out ++ [v] := by
  refine ⟨_, execPrn_regByte r t, ?_⟩
  rw [State.advance_out, State.emit_out, h.out, hread]

/-! ### Two-register instructions -/

/-- Settles O38: x[A] holds the sum, so a PRN of it appends the sum to OUT. -/
theorem addWritesTheSum : Obligations.AddWritesTheSum := by
  refine ⟨fun _ _ => rfl, checksBothRegisters_of_regBytes fun _ _ => rfl, operandsMustExist .add,
    fun s a b => ?_⟩
  obtain ⟨t, ht, hread, hpc, hframe⟩ := aluRR_answers (op := .add) (by decide) s a b
  exact ⟨t, ht, hread ▸ aluAdd_toNat _ _, hpc, hframe, hframe.prn_out hread⟩

/-- Settles O39: x[A] holds the low product, so a PRN of it appends that to OUT. -/
theorem mulWritesTheLowProduct : Obligations.MulWritesTheLowProduct := by
  refine ⟨fun _ _ => rfl, checksBothRegisters_of_regBytes fun _ _ => rfl, operandsMustExist .mul,
    fun s a b => ?_⟩
  obtain ⟨t, ht, hread, hpc, hframe⟩ := aluRR_answers (op := .mul) (by decide) s a b
  exact ⟨t, ht, hread ▸ aluMul_toNat _ _, hpc, hframe, hframe.prn_out hread⟩

/-- Settles O40: CMP is the compare, order by order, and an advance of 3. -/
theorem cmpWritesTheFlags : Obligations.CmpWritesTheFlags := by
  refine ⟨fun _ _ => rfl, checksBothRegisters_of_regBytes fun _ _ => rfl, operandsMustExist .cmp,
    fun s a b => ⟨_, aluRR_regByte .cmp a b s, cmpFlags_of_eq _ _ _, cmpFlags_of_lt _ _ _,
      fun hmode h => ?_, fun hmode h => ?_, rfl,
      (Frame.refl [] [] (s.compare (s.readReg a) (s.readReg b))).advance 3⟩⟩
  · rw [State.advance_fl, alu, State.compare_fl, hmode]
    exact cmpFlags_corrected_of_gt _ _ h
  · rw [State.advance_fl, alu, State.compare_fl, hmode]
    exact cmpFlags_legacy_of_gt _ _ h

/-- Settles O41: the results are the bit vectors' own operations. -/
theorem bitwiseInstructionsWorkBitByBit : Obligations.BitwiseInstructionsWorkBitByBit := by
  refine ⟨fun _ _ => ⟨rfl, rfl, rfl⟩, checksBothRegisters_of_regBytes fun _ _ => rfl,
    checksBothRegisters_of_regBytes fun _ _ => rfl, checksBothRegisters_of_regBytes fun _ _ => rfl,
    operandsMustExist .and, operandsMustExist .or, operandsMustExist .xor, fun s a b => ⟨?_, ?_, ?_⟩⟩
  · obtain ⟨t, ht, hread, hrest⟩ := aluRR_answers (op := .and) (by decide) s a b
    exact ⟨t, ht, fun k => hread ▸ BitVec.getLsbD_and, hrest⟩
  · obtain ⟨t, ht, hread, hrest⟩ := aluRR_answers (op := .or) (by decide) s a b
    exact ⟨t, ht, fun k => hread ▸ BitVec.getLsbD_or, hrest⟩
  · obtain ⟨t, ht, hread, hrest⟩ := aluRR_answers (op := .xor) (by decide) s a b
    exact ⟨t, ht, fun k => hread ▸ BitVec.getLsbD_xor, hrest⟩

/-- Settles O43: a shift left multiplies by `2 ^ vb`, which 256 divides from 8 on. -/
theorem shlShiftsByTheWholeByte : Obligations.ShlShiftsByTheWholeByte := by
  refine ⟨fun _ _ => rfl, checksBothRegisters_of_regBytes fun _ _ => rfl, operandsMustExist .shl,
    fun s a b => ?_⟩
  obtain ⟨t, ht, hread, hrest⟩ := aluRR_answers (op := .shl) (by decide) s a b
  exact ⟨t, ht, hread ▸ aluShl_toNat _ _, fun h => hread ▸ aluShl_eq_zero _ h, hrest⟩

/-- Settles O44: a shift right divides by `2 ^ vb`, which is above every byte from 8 on. -/
theorem shrShiftsByTheWholeByte : Obligations.ShrShiftsByTheWholeByte := by
  refine ⟨fun _ _ => rfl, checksBothRegisters_of_regBytes fun _ _ => rfl, operandsMustExist .shr,
    fun s a b => ?_⟩
  obtain ⟨t, ht, hread, hrest⟩ := aluRR_answers (op := .shr) (by decide) s a b
  exact ⟨t, ht, hread ▸ aluShr_toNat _ _, fun h => hread ▸ aluShr_eq_zero _ h, hrest⟩

/-! ### NOT -/

theorem alu_not_advance_readReg_toNat (s : State) (r : RegIdx) :
    (((alu .not r r s).advance 2).readReg r).toNat = 255 - (s.readReg r).toNat :=
  (congrArg BitVec.toNat (alu_readReg_fst .not r r s)).trans (aluNot_toNat _)

/-- A NOT is fetched from its opcode byte and the byte after it alone (41_alu.md R126). -/
theorem State.fetchInstr_not {s : State} {a : Byte} (hm : s.pc.toNat + 2 ≤ s.cfg.memSize)
    (hl : s.cfg.opcodeMap.lookup (s.mem.read s.pc.toNat) = some .not)
    (ha : s.mem.read (s.pc.toNat + 1) = a) : s.fetchInstr = .ok (.not a) := by
  rw [State.fetchInstr_of_lookup hl hm, ha]
  rfl

/-- Settles O42: the step is that of `exec`, since the fetch ends at p+1, and pc does not wrap. -/
theorem notWritesTheComplement : Obligations.NotWritesTheComplement := by
  refine ⟨fun _ => rfl, checksItsRegister_of_regBytes fun _ => rfl, operandsMustExist .not,
    fun s a hcfg hr hm hl ha => ?_, fun s a => ⟨_, execNot_regByte a s,
      alu_not_advance_readReg_toNat s a, rfl, alu_advance_frame (by decide) s a a 2⟩⟩
  have hrun : ((alu .not a a s).advance 2).runState = .running :=
    (alu_advance_runState .not a a s 2).trans hr
  have hstep := step_of_exec hr (State.fetchInstr_not hm hl ha) (execNot_regByte a s) (by
    rw [hrun]
    decide)
  exact ⟨_, hstep, hrun, alu_not_advance_readReg_toNat s a, pc_add_toNat hm hcfg.2.1⟩

end Sys2Proof.Machine
end

section
/-! PROOFS. 42_stack.md: SP arithmetic, PUSH and POP. -/

namespace Sys2Proof.Machine

/-! ### SP arithmetic (42_stack.md R140) -/

section
variable {s : State} (h : s.cfg.wf)
include h

/-- Adding MEM_SIZE before the subtraction, as `decSp` does, keeps the residue. -/
theorem State.decSp_toNat_int :
    (s.decSp.toNat : Int) = ((s.sp.toNat : Int) - 1) % (s.cfg.memSize : Int) := by
  have hsum : ((s.sp.toNat + s.cfg.memSize - 1 : Nat) : Int) = s.sp.toNat - 1 + s.cfg.memSize := by
    have := h.1
    omega
  rw [State.decSp_toNat h, Int.natCast_emod, hsum, Int.add_emod_right]

theorem State.incSp_toNat_int :
    (s.incSp.toNat : Int) = ((s.sp.toNat : Int) + 1) % (s.cfg.memSize : Int) := by
  rw [State.incSp_toNat h, Int.natCast_emod, Int.natCast_succ]

/-- Incrementing the decremented SP gives back the residue of SP. -/
theorem State.decSp_succ_mod :
    (s.decSp.toNat + 1) % s.cfg.memSize = s.sp.toNat % s.cfg.memSize := by
  have hsum : s.sp.toNat + s.cfg.memSize - 1 + 1 = s.sp.toNat + s.cfg.memSize := by
    have := h.1
    omega
  rw [State.decSp_toNat h, Nat.mod_add_mod, hsum, Nat.add_mod_right]

theorem State.decSp_of_full_memory (hm : s.cfg.memSize = 256) : s.decSp = s.sp - 1 := by
  have hd := State.decSp_toNat h
  rw [hm] at hd
  bv_omega

theorem State.incSp_of_full_memory (hm : s.cfg.memSize = 256) : s.incSp = s.sp + 1 := by
  have hi := State.incSp_toNat h
  rw [hm] at hi
  bv_omega

end

/-- Settles O45. -/
theorem spArithmeticWrapsInMemory : Obligations.SpArithmeticWrapsInMemory := fun _ h =>
  ⟨State.decSp_toNat_int h, State.incSp_toNat_int h, State.decSp_lt h, State.incSp_lt h,
    fun hm => ⟨State.decSp_of_full_memory h hm, State.incSp_of_full_memory h hm⟩⟩

/-! ### PUSH -/

theorem Frame.setCell {rs : List RegIdx} {cells : List Nat} {s t : State} (h : Frame rs cells s t)
    {a : Nat} (ha : a ∈ cells) (v : Byte) : Frame rs cells s (t.setCell a v) :=
  { h with
    mem := fun b hb => by
      have hba : b ≠ a := fun heq => hb (heq ▸ ha)
      rw [State.setCell_mem, Memory.read_write_other t.mem v hba, h.mem b hb] }

/-- Settles O46: the decremented SP is always an address, so the store never faults; the stored register
is read after the decrement. -/
theorem pushStoresBelowTheStack : Obligations.PushStoresBelowTheStack := by
  refine ⟨fun _ => rfl, checksItsRegister_of_regBytes fun _ => rfl, operandsMustExist .push,
    fun s a hcfg hmem => ⟨_, execPush_regByte a s (State.decSp_lt hcfg), ?_, ?_, rfl, ?_⟩⟩
  · exact s.writeSp_sp s.decSp
  · exact (Memory.read_write_same hmem _ _).trans (s.writeSp_readReg a s.decSp)
  · exact (((Frame.refl [spIdx] [s.decSp.toNat] s).writeReg (List.mem_singleton_self spIdx)
      s.decSp).setCell (List.mem_singleton_self _) _).advance 2

/-! ### POP -/

/-- POP to another register than SP leaves SP alone until it is incremented. -/
theorem State.writeReg_incSp_of_ne {r : RegIdx} (h : r ≠ spIdx) (s : State) (v : Byte) :
    (s.writeReg r v).incSp = s.incSp := by
  simp [State.incSp, State.sp_eq, h.symm]

/-- POP to SP itself increments the byte that was popped. -/
theorem State.writeSp_incSp_toNat {s : State} (h : s.cfg.wf) (v : Byte) :
    (s.writeSp v).incSp.toNat = (v.toNat + 1) % s.cfg.memSize := by
  rw [State.incSp_toNat (s := s.writeSp v) h, State.writeSp_sp, State.writeSp_cfg]

/-- Settles O47, by whether the byte at SP exists; the register is written before SP is incremented. -/
theorem popTakesTheTopOfTheStack : Obligations.PopTakesTheTopOfTheStack := by
  refine ⟨fun _ => rfl, checksItsRegister_of_regBytes fun _ => rfl, operandsMustExist .pop,
    fun s a hcfg => ⟨fun hsp => ⟨_, execPop_regByte a s hsp, fun ha => ⟨?_, ?_⟩, ?_, rfl, ?_⟩,
      fun hsp => execPop_addrRange a s (Nat.not_lt.mpr hsp)⟩⟩
  · simp [ha]
  · simp [State.writeReg_incSp_of_ne ha]
  · rintro rfl
    rw [State.advance_sp, State.writeSp_sp]
    exact State.writeSp_incSp_toNat hcfg _
  · exact (((Frame.refl [a, spIdx] [] s).writeReg (by simp) _).writeReg (r := spIdx) (by simp)
      _).advance 2

/-! ### PUSH, then POP -/

/-- Settles O48 from the meanings of PUSH and POP: the POP reads the cell that the PUSH wrote, and SP ends
at the increment of the decremented SP, also where the popped register is SP. -/
theorem pushThenPopRestores : Obligations.PushThenPopRestores := by
  intro s r hcfg hmem
  obtain ⟨-, -, -, push⟩ := pushStoresBelowTheStack
  obtain ⟨-, -, -, pop⟩ := popTakesTheTopOfTheStack
  obtain ⟨t, ht, htsp, htop, -, hst⟩ := push s r hcfg hmem
  have htcfg : t.cfg.wf := hst.cfg ▸ hcfg
  have haddr : t.sp.toNat < t.cfg.memSize := by
    rw [htsp, hst.cfg]
    exact State.decSp_lt hcfg
  obtain ⟨u, hu, hother, hself, -, htu⟩ := (pop t r htcfg).1 haddr
  rw [htsp, htop] at hother hself
  have husp : u.sp.toNat = (s.decSp.toNat + 1) % s.cfg.memSize := by
    by_cases hr : r = spIdx
    · rw [hself hr, if_pos hr, hst.cfg]
    · rw [(hother hr).2, State.incSp_toNat htcfg, htsp, hst.cfg]
  refine ⟨t, u, ht, hu, fun hsp q => ?_, fun hsp => ⟨husp, fun heq => ?_⟩, fun a ha => ?_⟩
  · by_cases hq : q = spIdx
    · subst hq
      refine BitVec.eq_of_toNat_eq (husp.trans ?_)
      rw [State.decSp_succ_mod hcfg, Nat.mod_eq_of_lt hsp, State.sp_eq]
    · by_cases hqr : q = r
      · subst hqr
        rw [(hother hq).1, if_neg hq]
      · rw [htu.regs q (by simp [hq, hqr]), hst.regs q (by simp [hq])]
  · have hlt : u.sp.toNat < s.cfg.memSize := husp ▸ Nat.mod_lt _ hcfg.1
    rw [heq] at hlt
    omega
  · rw [htu.mem a (by simp), hst.mem a (by simp [ha])]

end Sys2Proof.Machine
end

section
/-! PROOFS. 43_control.md: CALL, RET, JMP, JEQ and JNE, and what the next step makes of their targets. -/

namespace Sys2Proof.Machine

theorem Frame.jumpTo {rs : List RegIdx} {cells : List Nat} {s t : State} (h : Frame rs cells s t)
    (v : Byte) : Frame rs cells s (t.jumpTo v) :=
  { h with }

/-! ### JMP, JEQ and JNE -/

/-- Settles O53. -/
theorem jmpSetsPc : Obligations.JmpSetsPc :=
  ⟨fun _ => rfl, checksItsRegister_of_regBytes fun _ => rfl, operandsMustExist .jmp, fun s a =>
    ⟨_, execJmp_regByte a s, zext9_toNat _, (Frame.refl [] [] s).jumpTo _⟩⟩

/-- Settles O54, by bit 0 of FL. -/
theorem jeqJumpsWhenEqual : Obligations.JeqJumpsWhenEqual := by
  refine ⟨fun _ => rfl, checksItsRegister_of_regBytes fun _ => rfl, operandsMustExist .jeq,
    fun s a => ?_⟩
  cases hE : s.fl.getLsbD 0 with
  | true =>
    exact ⟨_, exec_jeq_taken a hE, fun _ => zext9_toNat _, nofun, (Frame.refl [] [] s).jumpTo _⟩
  | false =>
    exact ⟨_, exec_jeq_not_taken a hE, nofun, fun _ => rfl, (Frame.refl [] [] s).advance 2⟩

/-- Settles O55, by bit 0 of FL. -/
theorem jneJumpsWhenNotEqual : Obligations.JneJumpsWhenNotEqual := by
  refine ⟨fun _ => rfl, checksItsRegister_of_regBytes fun _ => rfl, operandsMustExist .jne,
    fun s a => ?_⟩
  cases hE : s.fl.getLsbD 0 with
  | true =>
    exact ⟨_, exec_jne_not_taken a hE, nofun, fun _ => rfl, (Frame.refl [] [] s).advance 2⟩
  | false =>
    exact ⟨_, exec_jne_taken a hE, fun _ => zext9_toNat _, nofun, (Frame.refl [] [] s).jumpTo _⟩

/-! ### CALL and RET -/

/-- Settles O50, by whether the return address fits a byte; the decremented SP is always an address, so
the store never faults. -/
theorem callStoresItsReturnAddress : Obligations.CallStoresItsReturnAddress := by
  refine ⟨fun _ => rfl, checksItsRegister_of_regBytes fun _ => rfl, operandsMustExist .call,
    fun s a hcfg hmem => ⟨fun hret =>
      ⟨_, execCall_regByte a s hret (State.decSp_lt hcfg), ?_, ?_, ?_, ?_⟩, execCall_retAddrRange a s⟩⟩
  · exact s.writeSp_sp s.decSp
  · exact (congrArg BitVec.toNat (Memory.read_write_same hmem _ _)).trans (trunc8_toNat hret)
  · rw [State.jumpTo_pc, zext9_toNat, State.writeSp_readReg]
  · exact (((Frame.refl [spIdx] [s.decSp.toNat] s).writeReg (List.mem_singleton_self spIdx)
      s.decSp).setCell (List.mem_singleton_self _) _).jumpTo _

/-- Settles O51, by whether the byte at SP exists. -/
theorem retTakesTheTopOfTheStack : Obligations.RetTakesTheTopOfTheStack :=
  ⟨rfl, fun s => ⟨fun hsp => ⟨_, execRet_ok s hsp, zext9_toNat _, s.writeSp_sp s.incSp,
      ((Frame.refl [spIdx] [] s).writeReg (List.mem_singleton_self spIdx) s.incSp).jumpTo _⟩,
    fun hsp => execRet_addrRange s (Nat.not_lt.mpr hsp)⟩⟩

/-- Settles O52 from the meanings of CALL and RET: the RET reads the return cell, and the increment of the
decremented SP is SP where that is below MEM_SIZE (42_stack.md R140). -/
theorem retResumesAfterTheCall : Obligations.RetResumesAfterTheCall := by
  intro s a hcfg hmem hsp hret
  obtain ⟨-, -, -, call⟩ := callStoresItsReturnAddress
  obtain ⟨-, ret⟩ := retTakesTheTopOfTheStack
  obtain ⟨t, ht, htsp, hcell, -, hst⟩ := (call s a hcfg hmem).1 hret
  refine ⟨t, ht, fun u hucfg husp hucell => ?_⟩
  have hcfgs : u.cfg = s.cfg := hucfg.trans hst.cfg
  have husps : u.sp = s.decSp := husp.trans htsp
  have haddr : u.sp.toNat < u.cfg.memSize := by
    rw [husps, hcfgs]
    exact State.decSp_lt hcfg
  obtain ⟨v, hv, hpc, hvsp, -⟩ := (ret u).1 haddr
  refine ⟨v, hv, ?_, BitVec.eq_of_toNat_eq ?_⟩
  · rw [hpc, husp, hucell, htsp, hcell]
  · rw [hvsp, State.incSp_toNat (hcfgs ▸ hcfg), husps, hcfgs, State.decSp_succ_mod hcfg,
      Nat.mod_eq_of_lt hsp]

/-! ### CMP, then a branch -/

/-- Settles O56 from the meanings of CMP, JEQ and JNE: of the values CMP leaves in FL, only that of equal
operands has bit 0 set. -/
theorem cmpDecidesTheNextBranch : Obligations.CmpDecidesTheNextBranch := by
  intro s a b r
  obtain ⟨-, -, -, cmp⟩ := cmpWritesTheFlags
  obtain ⟨-, -, -, jeq⟩ := jeqJumpsWhenEqual
  obtain ⟨-, -, -, jne⟩ := jneJumpsWhenNotEqual
  obtain ⟨t, ht, heq, hlt, hgt, -, htpc, hst⟩ := cmp s a b
  obtain ⟨u, hu, hutaken, hunot, -⟩ := jeq t r
  obtain ⟨v, hv, hvtaken, hvnot, -⟩ := jne t r
  have hr : t.readReg r = s.readReg r := hst.regs r List.not_mem_nil
  have hnext : t.pc + 2 = s.pc + 5 := by
    rw [htpc, BitVec.add_assoc]
    rfl
  rw [hr] at hutaken hvtaken
  rw [hnext] at hunot hvnot
  refine ⟨t, u, v, ht, hu, hv, fun h => ?_, fun hne hmode => ?_⟩
  · have hE : t.fl.getLsbD 0 = true := by
      rw [heq h]
      decide
    exact ⟨hutaken hE, hvnot hE⟩
  · have hE : t.fl.getLsbD 0 = false := by
      rcases Nat.lt_or_gt_of_ne hne with h | h
      · rw [hlt h]
        decide
      · rw [hgt (hmode.resolve_right h.not_gt) h]
        decide
    exact ⟨hunot hE, hvtaken hE⟩

/-! ### A JMP to its own address -/

/-- The core is RUNNING at a JMP whose register holds the address of that JMP. -/
structure State.AtSelfJump (r : RegIdx) (s : State) : Prop where
  running : s.runState = .running
  fetch : s.fetchInstr = .ok (.jmp (regByte r))
  target : (s.readReg r).toNat = s.pc.toNat

/-- A jump to pc leaves the state as it is, so the step does nothing but count. -/
theorem State.AtSelfJump.step {r : RegIdx} {s : State} (h : s.AtSelfJump r) :
    step s = .next s.countStep := by
  have htarget : zext9 (s.readReg r) = s.pc :=
    BitVec.eq_of_toNat_eq ((zext9_toNat _).trans h.target)
  have hjump : s.jumpTo (s.readReg r) = s := by rw [State.jumpTo, htarget]
  have hexec : exec (.jmp (regByte r)) s = .next s :=
    (execJmp_regByte r s).trans (congrArg _ hjump)
  exact step_of_exec h.running h.fetch hexec (by simp [h.running])

/-- The step counter decides neither the fetch nor the jump. -/
theorem State.AtSelfJump.countStep {r : RegIdx} {s : State} (h : s.AtSelfJump r) :
    s.countStep.AtSelfJump r :=
  ⟨h.running, h.fetch, h.target⟩

/-- Settles O34: every step keeps the core RUNNING at the JMP. -/
theorem jmpToItselfHangs : Obligations.JmpToItselfHangs := by
  intro s r hr hi htarget k t hk
  have hkeeps : ∀ u v : State, u.AtSelfJump r → step u = .next v → v.AtSelfJump r := by
    intro u v hu huv
    obtain rfl := Host.Outcome.next.inj (huv.symm.trans hu.step)
    exact hu.countStep
  exact (stepsTo_keeps hkeeps ⟨hr, hi, htarget⟩ hk).running

/-! ### A target beyond memory -/

/-- An opcode byte at MEM_SIZE or above is not fetched (30_encoding.md R84). -/
theorem State.fetchInstr_beyond_memory {s : State} (h : s.cfg.memSize ≤ s.pc.toNat) :
    s.fetchInstr = raise .addrRange s.pc.toNat := by
  simp only [State.fetchInstr, State.memRead_error (Nat.not_lt.mpr h), bind_error, raise]

/-- An instruction that has an explicit target names registers that exist. -/
theorem register_of_explicitTarget {i : Instr} {s : State} {v a : Byte}
    (hv : explicitTarget i s = some v) (ha : a ∈ i.regBytes) : ∃ r : RegIdx, a = regByte r := by
  refine (regByte_cases a).resolve_right fun h8 => ?_
  cases i with
  | call b | jmp b | jeq b | jne b =>
    obtain rfl := List.mem_singleton.mp ha
    simp [explicitTarget, Nat.not_lt.mpr h8] at hv
  | ret => cases ha
  | _ => cases hv

/-- A transfer whose own checks pass is a jump to its explicit target, whatever the target is
(43_control.md R155). -/
theorem exec_of_explicitTarget {i : Instr} {s : State} {v : Byte} (hcfg : s.cfg.wf)
    (hv : explicitTarget i s = some v) (hcall : ∀ a, i = .call a → s.pc.toNat + 2 ≤ 255)
    (hret : i = .ret → s.sp.toNat < s.cfg.memSize) :
    ∃ u : State, exec i s = .next (u.jumpTo v) ∧ u.runState = s.runState ∧ u.cfg = s.cfg := by
  cases i with
  | call a =>
    obtain ⟨r, rfl⟩ := register_of_explicitTarget hv (List.mem_singleton_self a)
    obtain rfl := Option.some.inj ((explicitTarget_call r s).symm.trans hv)
    exact ⟨_, execCall_regByte r s (hcall _ rfl) (State.decSp_lt hcfg), rfl, rfl⟩
  | ret =>
    obtain rfl := Option.some.inj hv
    exact ⟨_, execRet_ok s (hret rfl), rfl, rfl⟩
  | jmp a =>
    obtain ⟨r, rfl⟩ := register_of_explicitTarget hv (List.mem_singleton_self a)
    obtain rfl := Option.some.inj ((explicitTarget_jmp r s).symm.trans hv)
    exact ⟨_, execJmp_regByte r s, rfl, rfl⟩
  | jeq a =>
    obtain ⟨r, rfl⟩ := register_of_explicitTarget hv (List.mem_singleton_self a)
    obtain ⟨hE, rfl⟩ : s.flE = true ∧ s.readReg r = v := by simpa [explicitTarget_jeq] using hv
    exact ⟨_, exec_jeq_taken r hE, rfl, rfl⟩
  | jne a =>
    obtain ⟨r, rfl⟩ := register_of_explicitTarget hv (List.mem_singleton_self a)
    obtain ⟨hE, rfl⟩ : s.flE = false ∧ s.readReg r = v := by simpa [explicitTarget_jne] using hv
    exact ⟨_, exec_jne_taken r hE, rfl, rfl⟩
  | _ => cases hv

/-- Settles O33: the jump itself checks no address; the next fetch does. -/
theorem outOfRangeTargetFaultsAtTheNextFetch : Obligations.OutOfRangeTargetFaultsAtTheNextFetch := by
  intro s i v hcfg hr hi hv hrange hcall hret
  obtain ⟨u, hexec, hurun, hucfg⟩ := exec_of_explicitTarget hcfg hv hcall hret
  have hrun : (u.jumpTo v).runState = .running := hurun.trans hr
  have hpc : (u.jumpTo v).countStep.pc.toNat = v.toNat := zext9_toNat v
  have hbeyond := State.fetchInstr_beyond_memory (s := (u.jumpTo v).countStep) (by
    rw [hpc, State.countStep_cfg, State.jumpTo_cfg, hucfg]
    exact hrange)
  rw [hpc] at hbeyond
  have hstep := step_of_exec hr hi hexec (by simp [hurun, hr])
  exact ⟨_, hstep, hrun, hpc, step_of_fetch_raise hrun hbeyond⟩

end Sys2Proof.Machine
end

section
/-! PROOFS. 60_exceptions.md: the faults of the fetch in their order, and what a step that faults raises
and leaves unchanged. -/

namespace Sys2Proof.Machine

/-- Settles O15: the opcode byte, its entry in the map and the operand bytes are looked at in this
order. -/
theorem fetchFaultsComeInOrder : Obligations.FetchFaultsComeInOrder := by
  intro s hr
  refine ⟨fun hbeyond => ?_, fun hp hnone => ?_, fun k hp hl hk hm => ?_, fun k hp1 hl hk hm => ?_⟩
  · exact step_of_fetch_raise hr (State.fetchInstr_beyond_memory hbeyond)
  · exact step_of_fetch_raise hr (State.fetchInstr_unknown hp hnone)
  · exact (operandsMustExist k s hr hp hl).1 hk hm
  · exact (operandsMustExist k s hr (by omega) hl).2 hk (by omega)

/-- A step that ends FAULTED took, from the state before it, a fault of the fetch or of the
instruction. -/
theorem step_faulted {s t : State} (hr : s.runState = .running) (h : step s = .next t)
    (hend : t.runState = .faulted) :
    ∃ f, t = s.enterFault f ∧ (FetchRaises s f ∨ ∃ i, RaisedBy i s f) := by
  rcases step_cases hr with ⟨_, c, -, -, -, -, hne, hs⟩ | ⟨i, f, -, -, hf, hs⟩ | ⟨f, -, hf, hs⟩ <;>
    obtain rfl := Host.Outcome.next.inj (h.symm.trans hs)
  · exact absurd hend hne
  · exact ⟨f, rfl, .inr ⟨i, hf⟩⟩
  · exact ⟨f, rfl, .inl hf⟩

/-- Settles O17. -/
theorem faultsArePrecise : Obligations.FaultsArePrecise := by
  intro s t hr h hend
  obtain ⟨f, rfl, -⟩ := step_faulted hr h hend
  exact ⟨s.enterFault_faultPc f, rfl⟩

theorem FaultCause.raisable_iff (c : FaultCause) :
    c.Raisable ↔ c = .unknownOpcode ∨ c = .regRange ∨ c = .addrRange ∨ c = .retAddrRange := by
  cases c <;> simp [FaultCause.Raisable]

/-- Settles O18: the fetch and the instructions raise only raisable causes. -/
theorem raisedCausesAreTheFour : Obligations.RaisedCausesAreTheFour := by
  intro s t hr h hend
  obtain ⟨f, rfl, hf⟩ := step_faulted hr h hend
  have hraise : f.cause.Raisable := hf.elim FetchRaises.raisable fun ⟨_, hi⟩ => hi.raisable
  exact f.cause.raisable_iff.mp hraise

/-- With 256 cells every byte is an address, so no instruction raises ADDR_RANGE of its own
(60_exceptions.md R174). -/
theorem RaisedBy.cause_ne_addrRange {i : Instr} {s : State} {f : Raised} (h : RaisedBy i s f)
    (hm : s.cfg.memSize = 256) : f.cause ≠ .addrRange := by
  have hbyte : ∀ v : Byte, v.toNat < s.cfg.memSize := fun v => by
    rw [hm]
    exact v.isLt
  rcases h with ⟨hc, -⟩ | ⟨-, ⟨hsp, -⟩ | hdec⟩ | ⟨hc, -⟩
  · simp [hc]
  · exact absurd (hbyte s.sp) hsp
  · exact absurd (hbyte s.decSp) hdec
  · simp [hc]

/-- A fetch that starts no further than MEM_SIZE raises ADDR_RANGE only for MEM_SIZE itself: the
addresses before the missing one exist. -/
theorem FetchRaises.value_of_addrRange {s : State} {f : Raised} (h : FetchRaises s f)
    (hp : s.pc.toNat ≤ s.cfg.memSize) (hc : f.cause = .addrRange) :
    f.value = BitVec.ofNat 9 s.cfg.memSize := by
  obtain ⟨k, -, hbeyond, hbefore, hv⟩ := h.value hc
  have hend : s.pc.toNat + k = s.cfg.memSize := by omega
  rw [hv, hend]

/-- Settles O19: with 256 cells the fault is one of the fetch, whose first missing cell is MEM_SIZE. -/
theorem fullMemoryFaultsOnlyAtItsEnd : Obligations.FullMemoryFaultsOnlyAtItsEnd := by
  intro s t hinv hm hr h hend hcause
  have hp : s.pc.toNat ≤ s.cfg.memSize := by
    have := hinv.pcRange
    omega
  obtain ⟨f, rfl, hf | ⟨i, hf⟩⟩ := step_faulted hr h hend
  · rw [State.enterFault_faultValue, hf.value_of_addrRange hp hcause, hm]
    rfl
  · exact absurd hcause (hf.cause_ne_addrRange hm)

end Sys2Proof.Machine
end
